-- ==== Sys2Proof/Word.lean ====
section
/-! DEFINITION. The word types of the fbtft LCD bus block: bytes of the host stream and of the byte transport, and the
16-bit bus word (spec/00_scope.md R8, R10). -/

namespace Sys2Proof

/-- A byte: a stream byte, a payload byte, a register address (R8: register addresses have 8 bits). -/
abbrev Byte := BitVec 8

/-- A bus word, register value or operand word (R8: 16 bits; R10: every word is unsigned). -/
abbrev Word := BitVec 16

end Sys2Proof
end

