-- ==== Sys2Proof/Config.lean ====
section
/-! DEFINITION. What an attach fixes for a device instance (spec/00_scope.md R8, R9; 10_state.md R36, R37), as plain data,
and the one free value of the model: the open 8-bit-latched pin protocol (41_bus_writer.md R108). -/

namespace Sys2Proof

/-- A pin level (R12). `x`: not driven by this block since attach. -/
inductive Level where
  | lo
  | hi
  | x
deriving DecidableEq, Repr

/-- A pin role of the Bus Link (10_state.md R21 to R24, R37). -/
inductive PinRole where
  | db (i : Fin 16)
  | wr
  | dc
  | latch
deriving DecidableEq, Repr

/-- `TRANSPORT` (R8). -/
inductive Transport where
  | gpio
  | byte
deriving DecidableEq, Repr

/-- `ROT` (R8, 30_encoding.md R75). -/
inductive Rot where
  | r0
  | r90
  | r180
  | r270
deriving DecidableEq, Repr

/-- `FIRST_WORD_POLICY` (R8, 41_bus_writer.md R104). -/
inductive FirstWordPolicy where
  | forceFull
  | trustCache
deriving DecidableEq, Repr

/-- `BUF_ORDER` (R8, 20_memory.md R55). -/
inductive BufOrder where
  | le
  | be
deriving DecidableEq, Repr

/-- `VARIANT` (R9, 10_state.md R36). -/
inductive Variant where
  | opt16
  | slow16
  | naive16
  | latched8
  | bytew
deriving DecidableEq, Repr

/-- An entry of `INIT_SEQ` (43_init_sequencer.md R130). -/
inductive InitEntry where
  /-- `Fixed(a, v?)`. -/
  | fixed (a : Byte) (v : Option Word)
  /-- `Wave`: stands for `Fixed(REG_WAVE, WAVE_TABLE[ROT])` (R131). -/
  | wave
deriving DecidableEq, Repr

/-- `WAVE_TABLE`: exactly four entries, one per rotation (43_init_sequencer.md R131). -/
structure WaveTable where
  r0 : Word
  r90 : Word
  r180 : Word
  r270 : Word
deriving DecidableEq, Repr

/-- A logical start coordinate (42_address_window.md R120). -/
inductive Coord where
  | xs
  | ys
deriving DecidableEq, Repr

/-- One cell of the axis table (42_address_window.md R121): a coordinate, or its mirror image on the panel
(`WIDTH - 1 - xs`, `HEIGHT - 1 - ys`). -/
structure AxisCell where
  coord : Coord
  mirrored : Bool
deriving DecidableEq, Repr

/-- One row of the shared rotation table `ROT_PARAM` (10_state.md R39): the waveform value and the axis mapping. -/
structure RotRow where
  wave : Word
  x : AxisCell
  y : AxisCell
deriving DecidableEq, Repr

/-- Why an attach is refused (60_exceptions.md R167). -/
inductive RefusalReason where
  /-- `RF_LATCHED_SLOW`. -/
  | latchedSlow
  /-- `RF_NAIVE_MIX`. -/
  | naiveMix
  /-- `RF_BYTE_FLAGS`. -/
  | byteFlags
  /-- `RF_INIT_SEQ`. -/
  | initSeq
deriving DecidableEq, Repr

/-- `CFG` with the other attach parameters of R8 but `PINS`, which is a field of the state of its own (10_state.md R20).
`WR_LATCH` and `DC_DATA` are the other level of `WR_BEGIN` and `DC_CMD` (30_encoding.md R73, R74: two distinct levels):
`Machine.wrLatch`, `Machine.dcData` (DEDUCED, safe: log entry 8). `VARIANT` is `Machine.cfgVariant` (log entry 13). -/
structure Cfg where
  transport : Transport
  latched : Bool
  slow : Bool
  naive : Bool
  rot : Rot
  firstWord : FirstWordPolicy
  allocOk : Bool
  wrBegin : Bool
  dcCmd : Bool
  regX : Byte
  regY : Byte
  regRam : Byte
  initSeq : List InitEntry
  regWave : Byte
  waveTable : WaveTable
  bufOrder : BufOrder
  /-- Which function of `Config.latchedPinProtocol` this attach took (log entry 9). -/
  latchedProtocol : Nat
deriving DecidableEq, Repr

/-- What `LATCHED_PIN_PROTOCOL` is given of the pins (41_bus_writer.md R108): `DB[0..7]`, `LATCH`, `WR`. -/
structure LatchedLevels where
  db : Vector Level 8
  latch : Level
  wr : Level
deriving DecidableEq, Repr

/-- FREE VALUE (safe, log entry 9): the open parameter `LATCHED_PIN_PROTOCOL` of 41_bus_writer.md R108, a family of
functions of which the attach picks one. Nothing constrains it here; `Machine.latchedEvents` holds what it answers to the
shape the rules give. -/
opaque Config.latchedPinProtocol : Nat → LatchedLevels → Word → List (PinRole × Bool)

end Sys2Proof
end

