-- ==== Sys2Proof/Machine/Params.lean ====
section
/-! DEFINITION. What the attach parameters determine: the derived levels, the variant, the shared rotation table, the checks
that refuse a configuration, and the parameters State.reset takes (spec/00_scope.md R8, R9; 10_state.md R39;
43_init_sequencer.md R130; 60_exceptions.md R167; 70_reset_and_hazards.md R182). -/

namespace Sys2Proof.Machine

/-- A driven level as a pin level (R11, R12). -/
def levelOf (b : Bool) : Level := if b then .hi else .lo

/-- `WIDTH`, the native panel width (R8). -/
def panelWidth : Nat := 240

/-- `HEIGHT`, the native panel height (R8). -/
def panelHeight : Nat := 320

/-- `WR_LATCH`: the strobe level that is not `WR_BEGIN` (30_encoding.md R74). -/
def wrLatch (c : Cfg) : Bool := !c.wrBegin

/-- `DC_DATA`: the level that is not `DC_CMD` (30_encoding.md R73). -/
def dcData (c : Cfg) : Bool := !c.dcCmd

/-- `VARIANT` (R9). R9 gives none to a refused configuration; what this function answers there shows only in view 0 (log entry
27). -/
def cfgVariant (c : Cfg) : Variant :=
  match c.transport with
  | .byte => .bytew
  | .gpio => if c.naive then .naive16 else if c.latched then .latched8 else if c.slow then .slow16 else .opt16

/-- `WAVE_TABLE[r]` (43_init_sequencer.md R131). -/
def waveOf (t : WaveTable) : Rot → Word
  | .r0 => t.r0
  | .r90 => t.r90
  | .r180 => t.r180
  | .r270 => t.r270

/-- The axis half of the rotation table (42_address_window.md R121): the cells for the X and the Y register value. -/
def axisCells : Rot → AxisCell × AxisCell
  | .r0 => (⟨.xs, false⟩, ⟨.ys, false⟩)
  | .r180 => (⟨.xs, true⟩, ⟨.ys, true⟩)
  | .r90 => (⟨.ys, true⟩, ⟨.xs, false⟩)
  | .r270 => (⟨.ys, false⟩, ⟨.xs, true⟩)

/-- `ROT_PARAM[r]`, the one table both the sequencer and the window calculator read (10_state.md R39). -/
def rotParam (c : Cfg) (r : Rot) : RotRow := ⟨waveOf c.waveTable r, (axisCells r).1, (axisCells r).2⟩

/-! ### Checks at attach -/

/-- An entry is `Wave`. -/
def isWave : InitEntry → Bool
  | .wave => true
  | .fixed _ _ => false

/-- Checks W1, W2 and W3 of 43_init_sequencer.md R130. -/
def initSeqOk (c : Cfg) : Bool :=
  c.initSeq.countP isWave == 1 && c.initSeq.getLast? == some (.fixed c.regRam none) && !c.initSeq.isEmpty

/-- Every reason of 60_exceptions.md R167 that applies (log entry 5: the spec orders none of them before another). -/
def refusalReasons (c : Cfg) : List RefusalReason :=
  (if c.latched && c.slow then [.latchedSlow] else []) ++
  (if c.naive && (c.latched || c.slow) then [.naiveMix] else []) ++
  (if c.transport == .byte && (c.latched || c.slow || c.naive) then [.byteFlags] else []) ++
  (if initSeqOk c then [] else [.initSeq])

/-- `Refused(params)` of 70_reset_and_hazards.md R180, R182. -/
def cfgRefused (c : Cfg) : Bool := !(refusalReasons c).isEmpty

/-! ### The parameters State.reset takes -/

/-- The attach parameters of State.reset. `firstWord` and `regRam` are the spec's (R8); `wrBegin`, `dcCmd`, `regX` and `regY`
are the spec's defaults, which it marks as general knowledge (PRESUMED, unsafe: log entry 7); every other value is the one
of program P1 with T1 of 95_test_vectors.md (DESIGN CHOICE, unsafe: log entry 6). -/
def resetCfg : Cfg where
  transport := .gpio
  latched := false
  slow := false
  naive := false
  rot := .r0
  firstWord := .forceFull
  allocOk := true
  wrBegin := false
  dcCmd := false
  regX := 0x4E
  regY := 0x4F
  regRam := 0x22
  initSeq := [.fixed 0x00 (some 0x0001), .wave, .fixed 0x4E (some 0x0000), .fixed 0x4F (some 0x0000), .fixed 0x22 none]
  regWave := 0x11
  waveTable := ⟨0x6070, 0x6058, 0x6040, 0x6068⟩
  bufOrder := .le
  latchedProtocol := 0

/-- `PINS` of State.reset: DB0 to DB15, WR, DC (DESIGN CHOICE, unsafe: log entry 6). -/
def resetPins : BitVec 19 := 0x3FFFF

end Sys2Proof.Machine
end

