-- ==== Sys2Proof/Machine/State.lean ====
section
/-! DEFINITION. The architectural state of the block (spec/10_state.md R20 to R42), attach, which is the block's reset
(70_reset_and_hazards.md R180), and the reasons a step can stop. -/

namespace Sys2Proof.Machine

/-- `PHASE` (R33). Code 3 is never held. -/
inductive Phase where
  /-- Attached, validation not yet run. -/
  | new
  /-- Validation passed. -/
  | ready
  /-- Bring-up aborted by a configuration or resource error. -/
  | aborted
deriving DecidableEq, Repr

/-- `STATUS` (R34, 60_exceptions.md R160); `Machine.statusCode` gives the 8-bit codes. -/
inductive Status where
  | ok
  | configError
  | resourceError
  | oddLength
  | notAvailable
  | illegalCommand
  | notReady
  | aborted
deriving DecidableEq, Repr

/-- An event of the trace (R40). -/
inductive Event where
  /-- `Pin(p, l)`: pin role `p` is driven to level `l` (00_scope.md R11). -/
  | pin (p : PinRole) (l : Bool)
  /-- `Capture(dc, w)`: what the controller latches; each level may be `X` (41_bus_writer.md R102). -/
  | capture (dc : Level) (w : Vector Level 16)
  /-- `ByteOut(dc, b)`: a byte on the byte transport, DC at level `dc` (00_scope.md R11). -/
  | byteOut (dc : Level) (b : Byte)
deriving DecidableEq, Repr

/-- `FAULTS` (R35): the set of raised faults, each with what it records (60_exceptions.md R166). -/
structure FaultSet where
  /-- `F_COORD`: the `xs`, `ys` given. -/
  coord : Option (Word × Word)
  /-- `F_TRUNCATED`: the bytes of the partial descriptor. -/
  truncated : Option (List Byte)
deriving DecidableEq, Repr

/-- The state record of R20, and the host's command stream (30_encoding.md R76; the model's own field, log entry 1). -/
structure State where
  /-- `DB[0..15]` (R21). -/
  db : Vector Level 16
  /-- `WR` (R22). -/
  wr : Level
  /-- `DC` (R23). -/
  dc : Level
  /-- `LATCH` (R24). -/
  latch : Level
  /-- `PREV` (R30). -/
  prev : Word
  /-- `PREV_VALID` (R31). -/
  prevValid : Bool
  /-- `PHASE` (R33). -/
  phase : Phase
  /-- `STATUS` (R34). -/
  status : Status
  /-- `FAULTS` (R35). -/
  faults : FaultSet
  /-- `REFUSED` (R35). -/
  refused : Bool
  /-- `CFG` (R36). -/
  cfg : Cfg
  /-- `PINS` (R37): bit n set means role n is assigned. -/
  pins : BitVec 19
  /-- `TRACE` (R40), oldest event first. -/
  trace : List Event
  /-- The bytes of the host's finite command stream not yet decoded. -/
  stream : List Byte
deriving DecidableEq, Repr

/-- Why a step ends in a fault. -/
inductive Fault where
  /-- Raised by `step` when a sticky fault is already set: the run is over and no step exists (45_host_actions.md R151, R153;
  60_exceptions.md R169 step 1). Safe: the model promises nothing past the fault (R165). -/
  | stopped (faults : FaultSet)
deriving DecidableEq, Repr

/-- Why a step ends in a refusal. -/
inductive Refusal where
  /-- An instruction without a meaning, by its mnemonic: only exec's own arms answer it. Safe. -/
  | notModelled (mnemonic : String)
  /-- Raised by `step` on an instance whose attach was refused, with the reasons that apply (70_reset_and_hazards.md R182;
  60_exceptions.md R167): no step exists. Safe. -/
  | configRefused (reasons : List RefusalReason)
deriving DecidableEq, Repr

/-- The empty fault set. -/
def FaultSet.none : FaultSet := ⟨Option.none, Option.none⟩

/-- Attach (70_reset_and_hazards.md R180): every field at its reset value of R20, for the given parameters. Attach emits no
event, and an instance attached with `ALLOC_OK = false` starts aborted. -/
def State.attach (c : Cfg) (pins : BitVec 19) : State where
  db := Vector.replicate 16 .x
  wr := .x
  dc := .x
  latch := .x
  prev := 0x0000
  prevValid := false
  phase := if c.allocOk then .new else .aborted
  status := if c.allocOk then .ok else .resourceError
  faults := FaultSet.none
  refused := cfgRefused c
  cfg := c
  pins := pins
  trace := []
  stream := []

/-- The machine right after reset: one attach, with the parameters log entries 6 and 7 name. -/
def State.reset : State := State.attach resetCfg resetPins

end Sys2Proof.Machine
end

