-- ==== Sys2Proof/Machine/Ops.lean ====
section
/-! DEFINITION. The named operations on the state: the pseudocode primitives of spec/00_scope.md R11, ending a command with a
status, raising a sticky fault, and the dispatch checks every command shares (45_host_actions.md R151). -/

namespace Sys2Proof.Machine

/-! ### Fields -/

/-- The level of a pin role. -/
def State.pin (s : State) : PinRole → Level
  | .db i => s.db[i]
  | .wr => s.wr
  | .dc => s.dc
  | .latch => s.latch

/-- Set the level of a pin role. -/
def State.setPin (p : PinRole) (l : Level) (s : State) : State :=
  match p with
  | .db i => { s with db := s.db.set i l }
  | .wr => { s with wr := l }
  | .dc => { s with dc := l }
  | .latch => { s with latch := l }

/-- Append an event to the trace (10_state.md R40: in order, never removed). -/
def State.emit (e : Event) (s : State) : State := { s with trace := s.trace ++ [e] }

/-- `PREV <- w; PREV_VALID <- true` (41_bus_writer.md R101). -/
def State.setPrev (w : Word) (s : State) : State := { s with prev := w, prevValid := true }

def State.setStatus (st : Status) (s : State) : State := { s with status := st }

def State.setPhase (p : Phase) (s : State) : State := { s with phase := p }

def State.setFaults (f : FaultSet) (s : State) : State := { s with faults := f }

def State.setStream (bs : List Byte) (s : State) : State := { s with stream := bs }

/-! ### Primitives (R11) -/

/-- `PinWrite(p, l)`: sets the level and is an event, also when the pin already holds the level. -/
def pinWrite (p : PinRole) (l : Bool) (s : State) : State := (s.setPin p (levelOf l)).emit (.pin p l)

/-- Pin writes in order. -/
def pinWrites (ps : List (PinRole × Bool)) (s : State) : State := ps.foldl (fun s p => pinWrite p.1 p.2 s) s

/-- `emit Capture(DC, DB[15..0])` (41_bus_writer.md R102). -/
def capture (s : State) : State := s.emit (.capture s.dc s.db)

/-- `ByteOut(DC, b)`. -/
def byteOut (b : Byte) (s : State) : State := s.emit (.byteOut s.dc b)

/-- `Status(s)`: writes `STATUS` and ends the command. -/
def endWith (st : Status) (s : State) : Host.Outcome State Fault Refusal := .next (s.setStatus st)

/-- `raise Fault(F_COORD)`, recording the coordinates given (60_exceptions.md R166). A fault writes no status; it stops the
block at the next step (log entry 4). -/
def raiseCoord (xs ys : Word) (s : State) : Host.Outcome State Fault Refusal :=
  .next (s.setFaults { s.faults with coord := some (xs, ys) })

/-- `raise Fault(F_TRUNCATED)`, recording the bytes of the partial descriptor, which are all that is left of the stream
(30_encoding.md R82, 60_exceptions.md R166). -/
def raiseTruncated (s : State) : Host.Outcome State Fault Refusal :=
  .next ((s.setFaults { s.faults with truncated := some s.stream }).setStream [])

/-- `FAULTS ≠ ∅`. -/
def FaultSet.raised (f : FaultSet) : Bool := f.coord.isSome || f.truncated.isSome

/-! ### Dispatch (45_host_actions.md R151, 60_exceptions.md R168, R169 steps 4 and 5) -/

/-- The phase checks before the rule of every command but VERIFY_GPIOS. -/
def whenReady (body : State → Host.Outcome State Fault Refusal) (s : State) : Host.Outcome State Fault Refusal :=
  match s.phase with
  | .aborted => endWith .aborted s
  | .new => endWith .notReady s
  | .ready => body s

end Sys2Proof.Machine
end

