-- ==== Sys2Proof/Machine/HostActions.lean ====
section
/-! DEFINITION. The host pin actions HOST_DC_CMD and HOST_DC_DATA (spec/45_host_actions.md R150). -/

namespace Sys2Proof.Machine

/-- HOST_DC_CMD (R150): drive DC to the command level. No bus word is sent. -/
def execHostDcCmd (s : State) : Host.Outcome State Fault Refusal :=
  whenReady (fun s => endWith .ok (pinWrite .dc s.cfg.dcCmd s)) s

/-- HOST_DC_DATA (R150): drive DC to the data level. No bus word is sent. -/
def execHostDcData (s : State) : Host.Outcome State Fault Refusal :=
  whenReady (fun s => endWith .ok (pinWrite .dc (dcData s.cfg) s)) s

end Sys2Proof.Machine
end

