-- ==== Sys2Proof/Syntax.lean ====
section
/-! DEFINITION. The commands: one constructor per row of spec/opcode_table.json (spec/30_encoding.md R78, R79). -/

namespace Sys2Proof

/-- A host command with its operands as R79 assembles them. -/
inductive Instr where
  /-- VERIFY_GPIOS, OP 0x1 (44_config_validator.md R141). -/
  | verifyGpios
  /-- INIT_DISPLAY, OP 0x2 (43_init_sequencer.md R132). -/
  | initDisplay
  /-- SET_ADDR_WIN, OP 0x3 (42_address_window.md R122). -/
  | setAddrWin (xs ys xe ye : Word)
  /-- WRITE_REG_A, OP 0x4 with V = 0 (40_register_protocol.md R91). -/
  | writeRegA (addr : Byte)
  /-- WRITE_REG_AV, OP 0x4 with V = 1 (40_register_protocol.md R92). -/
  | writeRegAV (addr : Byte) (value : Word)
  /-- WRITE, OP 0x5 (41_bus_writer.md R110): the payload; `LEN` is its length (R79, log entry 20). -/
  | write (payload : List Byte)
  /-- HOST_DC_CMD, OP 0x6 with V = 0 (45_host_actions.md R150). -/
  | hostDcCmd
  /-- HOST_DC_DATA, OP 0x6 with V = 1 (45_host_actions.md R150). -/
  | hostDcData
deriving DecidableEq, Repr

/-- A line of the command language (30_encoding.md R84, R85): a command, the directive `.half`, or a pseudo-instruction.
`Sys2Proof.assembleLine` (Decode.lean) gives its bytes. -/
inductive AsmLine where
  | command (i : Instr)
  /-- `.half h`: the raw 16-bit word (R84). -/
  | half (h : Word)
  /-- `RAM_PRIME` (R85). -/
  | ramPrime
  /-- `PIXELS len, bytes` (R85). -/
  | pixels (payload : List Byte)
  /-- `SET_XY xs, ys` (R85). -/
  | setXY (xs ys : Word)
deriving DecidableEq, Repr

end Sys2Proof
end

