-- ==== Sys2Proof/WellFormed.lean ====
section
/-! DEFINITION. Which commands have a descriptor (spec/30_encoding.md R79): the only bound the types do not already carry is
WRITE's 32-bit length. -/

namespace Sys2Proof

/-- The command has a descriptor: WRITE's payload has a length that fits `LEN_HI ∥ LEN_LO` (R79). -/
def Instr.wf : Instr → Bool
  | .write payload => decide (payload.length < 2 ^ 32)
  | .verifyGpios => true
  | .initDisplay => true
  | .setAddrWin _ _ _ _ => true
  | .writeRegA _ => true
  | .writeRegAV _ _ => true
  | .hostDcCmd => true
  | .hostDcData => true

end Sys2Proof
end

