-- ==== Sys2Proof/Decode.lean ====
section
/-! DEFINITION. The host command descriptor (spec/30_encoding.md R76 to R83): decoding of a byte stream, total, and the
encoder written from the same tables; the table words of the host's probes; the command language of R84, R85. -/

namespace Sys2Proof

/-! ### Byte order (R76, R79) -/

/-- The 16-bit word of two stream bytes: `hi ∥ lo`, most significant byte first. -/
def beWord (hi lo : Byte) : Word := hi ++ lo

/-- `w[15:8]`. -/
def highByte (w : Word) : Byte := w.extractLsb' 8 8

/-- `w[7:0]`. -/
def lowByte (w : Word) : Byte := w.extractLsb' 0 8

/-- The two stream bytes of a word. -/
def wordBytes (w : Word) : List Byte := [highByte w, lowByte w]

/-- `LEN = LEN_HI ∥ LEN_LO` as a number (R79), from its four stream bytes. -/
def lenOfBytes (b3 b2 b1 b0 : Byte) : Nat := (beWord b3 b2 ++ beWord b1 b0 : BitVec 32).toNat

/-! ### Header (R77, R78) -/

/-- The commands a legal header names: one per row of the opcode map. -/
inductive HeaderKind where
  | verifyGpios
  | initDisplay
  | setAddrWin
  | writeRegA
  | writeRegAV
  | write
  | hostDcCmd
  | hostDcData
deriving DecidableEq, Repr

/-- One row of the opcode map: a header word `h` is of the row's kind when `h &&& mask = bits`. -/
structure OpcodeRow where
  bits : Word
  mask : Word
  kind : HeaderKind
deriving DecidableEq, Repr

/-- The opcode map (R78), with the match and mask columns of opcode_table.json. -/
def opcodeMap : List OpcodeRow :=
  [⟨0x1000, 0xFFFF, .verifyGpios⟩, ⟨0x2000, 0xFFFF, .initDisplay⟩, ⟨0x3000, 0xFFFF, .setAddrWin⟩,
   ⟨0x4000, 0xFF00, .writeRegA⟩, ⟨0x4100, 0xFF00, .writeRegAV⟩, ⟨0x5000, 0xFFFF, .write⟩,
   ⟨0x6000, 0xFFFF, .hostDcCmd⟩, ⟨0x6100, 0xFFFF, .hostDcData⟩]

/-- The header `h` is the row's. -/
def OpcodeRow.fits (r : OpcodeRow) (h : Word) : Bool := h &&& r.mask == r.bits

/-- What a header names; `none` for an illegal one (R81: no encoding falls through to a neighbour). -/
def headerKind (h : Word) : Option HeaderKind := (opcodeMap.find? (·.fits h)).map (·.kind)

/-- The header fields of R77: `OP`, `RSV`, `V`, `ADDR`. -/
def headerOp (h : Word) : BitVec 4 := h.extractLsb' 12 4
def headerRsv (h : Word) : BitVec 3 := h.extractLsb' 9 3
def headerV (h : Word) : Bool := h.getLsbD 8
def headerAddr (h : Word) : Byte := lowByte h

/-! ### Decoding (R76, R79 to R82) -/

/-- What the stream holds at a command boundary. -/
inductive Decoded where
  /-- A whole legal descriptor, and the stream after it. -/
  | instr (i : Instr) (rest : List Byte)
  /-- An illegal header `h` (R81), two bytes consumed. -/
  | illegal (h : Word) (rest : List Byte)
  /-- The stream ends inside a descriptor (R82). -/
  | truncated
  /-- The stream has no byte left: no descriptor has begun. -/
  | empty
deriving DecidableEq, Repr

/-- WRITE's payload: exactly `len` bytes follow (R79). -/
def decodePayload (len : Nat) (bs : List Byte) : Decoded :=
  if bs.length < len then .truncated else .instr (.write (bs.take len)) (bs.drop len)

/-- The operands after a legal header (R79, R80). -/
def decodeOperands : HeaderKind → Byte → List Byte → Decoded
  | .verifyGpios, _, bs => .instr .verifyGpios bs
  | .initDisplay, _, bs => .instr .initDisplay bs
  | .setAddrWin, _, x1 :: x0 :: y1 :: y0 :: u1 :: u0 :: v1 :: v0 :: bs =>
    .instr (.setAddrWin (beWord x1 x0) (beWord y1 y0) (beWord u1 u0) (beWord v1 v0)) bs
  | .setAddrWin, _, _ => .truncated
  | .writeRegA, a, bs => .instr (.writeRegA a) bs
  | .writeRegAV, a, v1 :: v0 :: bs => .instr (.writeRegAV a (beWord v1 v0)) bs
  | .writeRegAV, _, _ => .truncated
  | .write, _, b3 :: b2 :: b1 :: b0 :: bs => decodePayload (lenOfBytes b3 b2 b1 b0) bs
  | .write, _, _ => .truncated
  | .hostDcCmd, _, bs => .instr .hostDcCmd bs
  | .hostDcData, _, bs => .instr .hostDcData bs

/-- Decode one descriptor at the front of the stream. Legality of the header is decided from its two bytes, before the
rest is read (60_exceptions.md R169 steps 2 and 3). One byte alone is a descriptor cut short (DEDUCED, log entry 3). -/
def decode : List Byte → Decoded
  | [] => .empty
  | [_] => .truncated
  | hi :: lo :: bs =>
    match headerKind (beWord hi lo) with
    | none => .illegal (beWord hi lo) bs
    | some k => decodeOperands k (headerAddr (beWord hi lo)) bs

/-! ### Encoding (R77 to R79) -/

/-- A header word from its fields, `RSV` 000 (R77). -/
def headerWord (op : BitVec 4) (v : BitVec 1) (addr : Byte) : Word := op ++ (0 : BitVec 3) ++ v ++ addr

/-- The stream bytes of a command. -/
def encode : Instr → List Byte
  | .verifyGpios => wordBytes (headerWord 0x1 0 0)
  | .initDisplay => wordBytes (headerWord 0x2 0 0)
  | .setAddrWin xs ys xe ye =>
    wordBytes (headerWord 0x3 0 0) ++ wordBytes xs ++ wordBytes ys ++ wordBytes xe ++ wordBytes ye
  | .writeRegA a => wordBytes (headerWord 0x4 0 a)
  | .writeRegAV a v => wordBytes (headerWord 0x4 1 a) ++ wordBytes v
  | .write p =>
    wordBytes (headerWord 0x5 0 0) ++ wordBytes ((BitVec.ofNat 32 p.length).extractLsb' 16 16) ++
      wordBytes ((BitVec.ofNat 32 p.length).extractLsb' 0 16) ++ p
  | .hostDcCmd => wordBytes (headerWord 0x6 0 0)
  | .hostDcData => wordBytes (headerWord 0x6 1 0)

/-- The length in bytes of a command's descriptor (R80). -/
def descriptorLength : Instr → Nat
  | .verifyGpios => 2
  | .initDisplay => 2
  | .setAddrWin _ _ _ _ => 10
  | .writeRegA _ => 2
  | .writeRegAV _ _ => 4
  | .write p => 6 + p.length
  | .hostDcCmd => 2
  | .hostDcData => 2

/-! ### The host's probes: one instruction given by its table word -/

/-- The length of the descriptor a stream begins with, from its header and, for WRITE, its length words (R80, R81). -/
def streamDescriptorLength (bs : List Byte) : Nat :=
  match bs with
  | hi :: lo :: rest =>
    match headerKind (beWord hi lo), rest with
    | some .setAddrWin, _ => 10
    | some .writeRegAV, _ => 4
    | some .write, b3 :: b2 :: b1 :: b0 :: _ => 6 + lenOfBytes b3 b2 b1 b0
    | some .write, _ => 6
    | _, _ => 2
  | _ => 2

/-- The stream bytes of words `0 .. n-1` of a table word `w`: word `k` is bits `16k+15 .. 16k` of `w`, sent most significant
byte first (R76). -/
def tableWords (n w : Nat) : List Byte :=
  (List.range n).flatMap fun k => wordBytes (BitVec.ofNat 16 (w / 2 ^ (16 * k)))

/-- The stream bytes of the one instruction whose table bits are `w` (`nbits` of them, every bit above zero): exactly its
descriptor. -/
def tableBytes (nbits w : Nat) : List Byte :=
  let head := tableWords (max 5 ((nbits + 15) / 16)) (w % 2 ^ nbits)
  let len := streamDescriptorLength head
  (head ++ List.replicate (len - head.length) 0).take len

/-- The instruction the decoder reads from a table word. -/
def decodeTableWord (nbits w : Nat) : Option Instr :=
  match decode (tableBytes nbits w) with
  | .instr i _ => some i
  | _ => none

/-! ### The command language (R84, R85) -/

/-- The core commands of a line, each with its bytes. `regRam` is the parameter `REG_RAM`. -/
def assembleLine (regRam : Byte) : AsmLine → List Byte
  | .command i => encode i
  | .half h => wordBytes h
  | .ramPrime => encode (.writeRegA regRam)
  | .pixels p => encode .hostDcData ++ encode (.write p)
  | .setXY xs ys => encode (.setAddrWin xs ys 0 0)

/-- A program of the command language as one stream. -/
def assemble (regRam : Byte) (ls : List AsmLine) : List Byte := ls.flatMap (assembleLine regRam)

end Sys2Proof
end

