-- ==== Sys2Proof/Machine/Operands.lean ====
section
/-! DEFINITION. Operand forms: the address as a bus word, the words of a WRITE buffer, the levels of a word, the data lines,
the axis cells of a start point, and the bits of `PINS` (spec/20_memory.md R53 to R56; 30_encoding.md R70;
42_address_window.md R121; 10_state.md R37). -/

namespace Sys2Proof.Machine

/-- `zext_16(a)` (30_encoding.md R70). -/
def addrWord (a : Byte) : Word := a.setWidth 16

/-- Word k of a buffer from its two bytes (20_memory.md R55). -/
def bufWord (o : BufOrder) (b0 b1 : Byte) : Word :=
  match o with
  | .le => beWord b1 b0
  | .be => beWord b0 b1

/-- The words of a WRITE buffer, first to last. -/
def bufWords (o : BufOrder) : List Byte → List Word
  | b0 :: b1 :: bs => bufWord o b0 b1 :: bufWords o bs
  | _ => []

/-- The levels that present `w` on the lines: line i carries bit i (20_memory.md R53). -/
def wordLevels (w : Word) : Vector Level 16 := Vector.ofFn fun i => levelOf (w.getLsbD i)

/-- The data lines in ascending index. -/
def allLines : List (Fin 16) := List.finRange 16

/-- The lines whose bit of `w` differs from `p`, ascending (41_bus_writer.md R101). -/
def changedLines (p w : Word) : List (Fin 16) := allLines.filter fun i => w.getLsbD i != p.getLsbD i

/-- The pin writes that drive lines `is` to the bits of `w`. -/
def lineWrites (is : List (Fin 16)) (w : Word) : List (PinRole × Bool) := is.map fun i => (.db i, w.getLsbD i)

/-- The value of an axis cell, on unbounded integers (42_address_window.md R121). -/
def axisValue (c : AxisCell) (xs ys : Int) : Int :=
  match c.coord, c.mirrored with
  | .xs, false => xs
  | .xs, true => panelWidth - 1 - xs
  | .ys, false => ys
  | .ys, true => panelHeight - 1 - ys

/-- The number of a pin role in `PINS` (10_state.md R37). -/
def pinIndex : PinRole → Nat
  | .db i => i
  | .wr => 16
  | .dc => 17
  | .latch => 18

/-- `PINS[r] = 1`: the role is assigned a line. -/
def pinAssigned (pins : BitVec 19) (r : PinRole) : Bool := pins.getLsbD (pinIndex r)

end Sys2Proof.Machine
end

