-- ==== Sys2Proof/Machine/BusWriter.lean ====
section
/-! DEFINITION. The Bus Writer (spec/41_bus_writer.md): one word step per variant and the command WRITE. -/

namespace Sys2Proof.Machine

/-- A 16-line word step that re-drives lines `is`: `WR_BEGIN`, the lines, `WR_LATCH`, the capture (R101, R106). -/
def strobeWord (is : List (Fin 16)) (w : Word) (s : State) : State :=
  capture (pinWrite .wr (wrLatch s.cfg) (pinWrites (lineWrites is w) (pinWrite .wr s.cfg.wrBegin s)))

/-- The lines OPT16 re-drives for `w` (R101): all for a forced first word, none for an equal word, else the changed ones. -/
def optLines (s : State) (w : Word) : List (Fin 16) :=
  if s.prevValid = false ∧ s.cfg.firstWord = .forceFull then allLines
  else if w = s.prev then []
  else changedLines s.prev w

/-- The OPT16 word step (R101). -/
def wordOpt16 (w : Word) (s : State) : State := (strobeWord (optLines s w) w s).setPrev w

/-- The SLOW16 word step: the same events and state writes as OPT16 (R105). -/
def wordSlow16 (w : Word) (s : State) : State := wordOpt16 w s

/-- The NAIVE16 word step: every line, no cache (R106). -/
def wordNaive16 (w : Word) (s : State) : State := strobeWord allLines w s

/-! ### LATCHED8 (R108) -/

/-- What the protocol is given of the pins. -/
def latchedLevels (s : State) : LatchedLevels :=
  ⟨Vector.ofFn fun i : Fin 8 => s.db[i.castLE (by decide : 8 ≤ 16)], s.latch, s.wr⟩

/-- The protocol may drive the role: `DB[0..7]`, `LATCH`, `WR` only. -/
def latchedRole : PinRole → Bool
  | .db i => decide (i.val < 8)
  | .wr => true
  | .latch => true
  | .dc => false

/-- What the rules say of the list the protocol returns. Only its own pins (R108). `WR` is written exactly twice, first to
`WR_BEGIN`, then to `WR_LATCH` (10_state.md R22, 70_reset_and_hazards.md R194), so that it makes exactly one transition from
`WR_BEGIN` to `WR_LATCH` whatever level it had, and that transition is the last event (R108). No data line is written before
`WR_BEGIN` (R193: `WR_BEGIN`, then the data lines, then `WR_LATCH`; that this holds for LATCHED8 too is DEDUCED, unsafe, log
entry 9). Where `LATCH` is written is open. -/
def latchedShape (wrBegin : Bool) (ps : List (PinRole × Bool)) : Bool :=
  ps.all (fun p => latchedRole p.1) &&
    ps.filter (fun p => p.1 == .wr) == [(.wr, wrBegin), (.wr, !wrBegin)] &&
    ps.find? (fun p => p.1 != .latch) == some (.wr, wrBegin) &&
    ps.getLast? == some (.wr, !wrBegin)

/-- The pin writes of a LATCHED8 word: what the open protocol answers, held to `latchedShape`. An answer without that shape is
no protocol the rules allow and is replaced by the shortest list that has it, so that the lists possible here are exactly
those the rules allow (log entry 9). -/
def latchedEvents (s : State) (w : Word) : List (PinRole × Bool) :=
  let ps := Config.latchedPinProtocol s.cfg.latchedProtocol (latchedLevels s) w
  if latchedShape s.cfg.wrBegin ps then ps else [(.wr, s.cfg.wrBegin), (.wr, wrLatch s.cfg)]

/-- The LATCHED8 word step (R108): the protocol's pin writes, then `Capture(DC, w)` (the whole word is delivered: the ASSUMED
property of the parameter, log entry 9). The cache is not touched. -/
def wordLatched8 (w : Word) (s : State) : State :=
  let t := pinWrites (latchedEvents s w) s
  t.emit (.capture t.dc (wordLevels w))

/-- The BYTEW word step: most significant byte first, no pin, no cache (R109). -/
def wordBytew (w : Word) (s : State) : State := byteOut (lowByte w) (byteOut (highByte w) s)

/-- `BusWord(w)`: the word step of the selected variant, by `VARIANT` alone (R100). -/
def busWord (w : Word) (s : State) : State :=
  match cfgVariant s.cfg with
  | .opt16 => wordOpt16 w s
  | .slow16 => wordSlow16 w s
  | .naive16 => wordNaive16 w s
  | .latched8 => wordLatched8 w s
  | .bytew => wordBytew w s

/-- Words in order (20_memory.md R60). -/
def busWords (ws : List Word) (s : State) : State := ws.foldl (fun s w => busWord w s) s

/-! ### WRITE (R110 to R113) -/

/-- The rule of WRITE in phase READY: not available on the byte transport, then odd length, then the words (R110, and
60_exceptions.md R169 step 6 for the order). -/
def writeBody (payload : List Byte) (s : State) : Host.Outcome State Fault Refusal :=
  if s.cfg.transport = .byte then endWith .notAvailable s
  else if payload.length % 2 = 1 then endWith .oddLength s
  else endWith .ok (busWords (bufWords s.cfg.bufOrder payload) s)

/-- WRITE (R110). -/
def execWrite (payload : List Byte) (s : State) : Host.Outcome State Fault Refusal := whenReady (writeBody payload) s

end Sys2Proof.Machine
end

