-- ==== Sys2Proof/Machine/RegProtocol.lean ====
section
/-! DEFINITION. The Register Protocol Driver (spec/40_register_protocol.md): `RegWrite` and the commands WRITE_REG_A and
WRITE_REG_AV. -/

namespace Sys2Proof.Machine

/-- The command phase of `RegWrite` (R90): DC to command, the address as one bus word. -/
def sendAddr (a : Byte) (s : State) : State := busWord (addrWord a) (pinWrite .dc s.cfg.dcCmd s)

/-- The data phase of `RegWrite` (R90): DC to data, the value as one bus word. -/
def sendValue (v : Word) (s : State) : State := busWord v (pinWrite .dc (dcData s.cfg) s)

/-- `RegWrite(a, v?)` (R90). -/
def regWrite (a : Byte) (v : Option Word) (s : State) : State :=
  match v with
  | none => sendAddr a s
  | some v => sendValue v (sendAddr a s)

/-- WRITE_REG_A (R91). -/
def execWriteRegA (addr : Byte) (s : State) : Host.Outcome State Fault Refusal :=
  whenReady (fun s => endWith .ok (regWrite addr none s)) s

/-- WRITE_REG_AV (R92). -/
def execWriteRegAV (addr : Byte) (value : Word) (s : State) : Host.Outcome State Fault Refusal :=
  whenReady (fun s => endWith .ok (regWrite addr (some value) s)) s

end Sys2Proof.Machine
end

