-- ==== Sys2Proof/Machine/Sequencer.lean ====
section
/-! DEFINITION. The Initialization Sequencer (spec/43_init_sequencer.md): the entries of `INIT_SEQ` and the command
INIT_DISPLAY. -/

namespace Sys2Proof.Machine

/-- One entry as a register write: `Wave` stands for `Fixed(REG_WAVE, WAVE_TABLE[ROT])`, read from the shared rotation table
(R131, 10_state.md R39). -/
def entryWrite (c : Cfg) : InitEntry → Byte × Option Word
  | .fixed a v => (a, v)
  | .wave => (c.regWave, some (rotParam c c.rot).wave)

/-- Send one entry. -/
def sendEntry (e : InitEntry) (s : State) : State := regWrite (entryWrite s.cfg e).1 (entryWrite s.cfg e).2 s

/-- Entries strictly in order, none reordered, merged or dropped (R132, R133). -/
def sendEntries (es : List InitEntry) (s : State) : State := es.foldl (fun s e => sendEntry e s) s

/-- INIT_DISPLAY (R132). -/
def execInitDisplay (s : State) : Host.Outcome State Fault Refusal :=
  whenReady (fun s => endWith .ok (sendEntries s.cfg.initSeq s)) s

end Sys2Proof.Machine
end

