-- ==== Sys2Proof/Machine/Validator.lean ====
section
/-! DEFINITION. The GPIO Configuration Validator (spec/44_config_validator.md) and the command VERIFY_GPIOS. -/

namespace Sys2Proof.Machine

/-- `REQ`, the roles that must be assigned (R140). -/
def requiredPins (c : Cfg) : List PinRole :=
  .dc ::
    match c.transport with
    | .byte => []
    | .gpio => .wr :: if c.latched then .latch :: (allLines.filter (·.val < 8)).map .db else allLines.map .db

/-- `Validate(CFG, PINS)` (R140). Roles beyond `REQ` are accepted (R144). -/
def validate (c : Cfg) (pins : BitVec 19) : Bool := (requiredPins c).all (pinAssigned pins)

/-- VERIFY_GPIOS (R141): the one command accepted in phase NEW. It emits no event in any phase. -/
def execVerifyGpios (s : State) : Host.Outcome State Fault Refusal :=
  match s.phase with
  | .aborted => endWith .aborted s
  | .new =>
    if validate s.cfg s.pins then endWith .ok (s.setPhase .ready) else endWith .configError (s.setPhase .aborted)
  | .ready => endWith .ok s

end Sys2Proof.Machine
end

