-- ==== Sys2Proof/Machine/Window.lean ====
section
/-! DEFINITION. The Address Window Calculator (spec/42_address_window.md): the axis mapping and the command SET_ADDR_WIN. -/

namespace Sys2Proof.Machine

/-- `AxisMap(ROT, xs, ys)` (R121), through the shared rotation table (10_state.md R39). -/
def axisMap (c : Cfg) (xs ys : Int) : Int × Int :=
  (axisValue (rotParam c c.rot).x xs ys, axisValue (rotParam c c.rot).y xs ys)

/-- The coordinate precondition (R124), the same for every rotation. -/
def coordsOk (xs ys : Word) : Bool := decide (xs.toNat < panelWidth) && decide (ys.toNat < panelHeight)

/-- The rule of SET_ADDR_WIN in phase READY (R122). -/
def windowBody (xs ys : Word) (s : State) : Host.Outcome State Fault Refusal :=
  if coordsOk xs ys then
    let xy := axisMap s.cfg xs.toNat ys.toNat
    endWith .ok
      (regWrite s.cfg.regRam none
        (regWrite s.cfg.regY (some (BitVec.ofInt 16 xy.2)) (regWrite s.cfg.regX (some (BitVec.ofInt 16 xy.1)) s)))
  else raiseCoord xs ys s

/-- SET_ADDR_WIN (R122). `xe` and `ye` are read from the descriptor and discarded, with no check of them (R123). -/
def execSetAddrWin (xs ys _xe _ye : Word) (s : State) : Host.Outcome State Fault Refusal := whenReady (windowBody xs ys) s

end Sys2Proof.Machine
end

