-- ==== Sys2Proof/Machine/Dispatch.lean ====
section
/-! DEFINITION. One arm per command: each calls its meaning. -/

namespace Sys2Proof.Machine

def exec (i : Instr) (s : State) : Host.Outcome State Fault Refusal :=
  match i with
  | .verifyGpios => Sys2Proof.Machine.execVerifyGpios s
  | .initDisplay => Sys2Proof.Machine.execInitDisplay s
  | .setAddrWin xs ys xe ye => Sys2Proof.Machine.execSetAddrWin xs ys xe ye s
  | .writeRegA addr => Sys2Proof.Machine.execWriteRegA addr s
  | .writeRegAV addr value => Sys2Proof.Machine.execWriteRegAV addr value s
  | .write payload => Sys2Proof.Machine.execWrite payload s
  | .hostDcCmd => Sys2Proof.Machine.execHostDcCmd s
  | .hostDcData => Sys2Proof.Machine.execHostDcData s

end Sys2Proof.Machine
end

