-- ==== Sys2Proof/Machine/Step.lean ====
section
/-! DEFINITION. One step: the dispatch of one descriptor of the host's stream (spec/45_host_actions.md R151, 60_exceptions.md
R169), and where the host's probe puts an instruction. -/

namespace Sys2Proof.Machine

/-- One descriptor, in the order of R169: no step on a refused or faulted instance; an illegal header consumes its two bytes
and ends with ILLEGAL_COMMAND; a stream that ends inside a descriptor raises `F_TRUNCATED`; a whole descriptor is consumed
and its command run. With no byte left the block waits for the host and nothing changes (R181, log entry 2). -/
def step (s : State) : Host.Outcome State Fault Refusal :=
  if s.refused then .refused (.configRefused (refusalReasons s.cfg))
  else if s.faults.raised then .fault (.stopped s.faults)
  else
    match decode s.stream with
    | .empty => .next s
    | .illegal _ rest => endWith .illegalCommand (s.setStream rest)
    | .truncated => raiseTruncated s
    | .instr i rest => exec i (s.setStream rest)

/-- `s` with the one instruction whose table bits are `w` at the front of the host's stream (log entry 11). -/
def State.withFetchWord (s : State) (nbits w : Nat) : State := s.setStream (tableBytes nbits w ++ s.stream)

end Sys2Proof.Machine
end

