-- ==== Sys2Proof/Machine/Observe.lean ====
section
/-! DEFINITION. The controller-side observer (spec/20_memory.md R65, R66): the words of a trace, and the register state they
leave. It is a relation on the block's own output and says nothing of the controller (00_scope.md R6). -/

namespace Sys2Proof.Machine

/-! ### `Words(TRACE)` (R66) -/

/-- The words of GPIO events: every capture in order. -/
def captureWords : List Event → List (Level × Vector Level 16)
  | [] => []
  | .capture dc w :: es => (dc, w) :: captureWords es
  | .pin _ _ :: es => captureWords es
  | .byteOut _ _ :: es => captureWords es

/-- The bytes of the byte transport in order. -/
def outBytes : List Event → List (Level × Byte)
  | [] => []
  | .byteOut dc b :: es => (dc, b) :: outBytes es
  | .pin _ _ :: es => outBytes es
  | .capture _ _ :: es => outBytes es

/-- Bytes taken in pairs, high byte first. -/
def pairWords : List (Level × Byte) → List (Level × Vector Level 16)
  | (dc, hi) :: (_, lo) :: bs => (dc, wordLevels (beWord hi lo)) :: pairWords bs
  | _ => []

/-- `Words(TRACE)`: captures on a GPIO transport, paired bytes on the byte transport. -/
def words (t : Transport) (tr : List Event) : List (Level × Vector Level 16) :=
  match t with
  | .gpio => captureWords tr
  | .byte => pairWords (outBytes tr)

/-! ### The register map of an observation: a sorted list of address and value -/

/-- The value of an address; `none` for an address no word has set. -/
def regGet (m : List (Nat × Word)) (a : Nat) : Option Word :=
  match m with
  | [] => none
  | (b, v) :: m => if a = b then some v else regGet m a

/-- Set an address, keeping the list sorted without repeats. -/
def regSet (a : Nat) (v : Word) : List (Nat × Word) → List (Nat × Word)
  | [] => [(a, v)]
  | (b, u) :: m => if a < b then (a, v) :: (b, u) :: m else if a = b then (a, v) :: m else (b, u) :: regSet a v m

/-- The canonical form: addresses strictly rising. -/
def regMapWf (m : List (Nat × Word)) : Bool := decide (m.Pairwise fun p q => p.1 < q.1)

/-! ### `Observe(TRACE)` (R65) -/

/-- The triple of R65, with its `UNINDEXED` list. -/
structure Observation where
  idx : Option Byte
  regs : List (Nat × Word)
  gram : List Word
  unindexed : List Word
deriving DecidableEq, Repr

/-- Nothing observed yet. -/
def observeNone : Observation := ⟨none, [], [], []⟩

/-- One word with its DC level, read by the loop of R65. -/
def observeWord (c : Cfg) (o : Observation) (dw : Bool × Word) : Observation :=
  if dw.1 = c.dcCmd then { o with idx := some (lowByte dw.2) }
  else
    match o.idx with
    | none => { o with unindexed := o.unindexed ++ [dw.2] }
    | some a =>
      if a = c.regRam then { o with gram := o.gram ++ [dw.2] } else { o with regs := regSet a.toNat dw.2 o.regs }

/-- The loop of R65 over words whose levels are all known. -/
def observeWords (c : Cfg) (ws : List (Bool × Word)) : Observation := ws.foldl (observeWord c) observeNone

/-- A level can be read as the bit: `X` as every value (00_scope.md R12). -/
def levelReads (l : Level) (b : Bool) : Prop := l = .x ∨ l = levelOf b

/-- A captured word can be read as the DC level and the word. -/
def wordReads (lw : Level × Vector Level 16) (dw : Bool × Word) : Prop :=
  levelReads lw.1 dw.1 ∧ ∀ i : Fin 16, levelReads lw.2[i] (dw.2.getLsbD i)

/-- `Observe(TRACE)`: the observations a trace admits, each captured `X` read as every value it could take (R65). -/
def Observes (c : Cfg) (tr : List Event) (o : Observation) : Prop :=
  ∃ ws, List.Forall₂ wordReads (words c.transport tr) ws ∧ observeWords c ws = o

end Sys2Proof.Machine
end

