-- ==== Sys2Proof/Machine/Flags.lean ====
section
/-! DEFINITION. The codes of the result and stage registers. The block has no condition flags (spec/10_state.md R42); what a
command computes as its result is `STATUS` (60_exceptions.md R160), and its stage is `PHASE` (10_state.md R33). -/

namespace Sys2Proof.Machine

/-- The 8-bit code of `STATUS` (60_exceptions.md R160). -/
def statusCode : Status → BitVec 8
  | .ok => 0x00
  | .configError => 0x01
  | .resourceError => 0x02
  | .oddLength => 0x03
  | .notAvailable => 0x04
  | .illegalCommand => 0x05
  | .notReady => 0x06
  | .aborted => 0x07

/-- The 2-bit code of `PHASE` (10_state.md R33). -/
def phaseCode : Phase → BitVec 2
  | .new => 0
  | .ready => 1
  | .aborted => 2

/-- The 2-bit code of `ROT` (30_encoding.md R75). -/
def rotCode : Rot → BitVec 2
  | .r0 => 0
  | .r90 => 1
  | .r180 => 2
  | .r270 => 3

/-- The 3-bit code of `VARIANT` (10_state.md R36). -/
def variantCode : Variant → BitVec 3
  | .opt16 => 0
  | .slow16 => 1
  | .naive16 => 2
  | .latched8 => 3
  | .bytew => 4

end Sys2Proof.Machine
end

