-- ==== Sys2Proof/Machine/Views.lean ====
section
/-! DEFINITION. The read-only register views of the state (spec/10_state.md R36 to R38). No view is host-writable. -/

namespace Sys2Proof.Machine

/-- View 0, `CFG` (R36). Bits 15:11 read as 0. On a refused instance, where attach stops before VARIANT is derived
(70_reset_and_hazards.md R180, 00_scope.md R9), the VARIANT bits read what R9's order gives (DESIGN CHOICE, unsafe: log entry
27). -/
def viewCfg (s : State) : BitVec 16 :=
  (0 : BitVec 5) ++ variantCode (cfgVariant s.cfg) ++ BitVec.ofBool s.cfg.allocOk ++
    BitVec.ofBool (s.cfg.firstWord == .trustCache) ++ rotCode s.cfg.rot ++ BitVec.ofBool s.cfg.naive ++
    BitVec.ofBool s.cfg.slow ++ BitVec.ofBool s.cfg.latched ++ BitVec.ofBool (s.cfg.transport == .byte)

/-- View 1, `PINS` (R37). Bits 31:19 read as 0. -/
def viewPins (s : State) : BitVec 32 := s.pins.setWidth 32

/-- View 2, `PHASE` (R38). -/
def viewPhase (s : State) : BitVec 2 := phaseCode s.phase

/-- View 3, `STATUS` (R38). -/
def viewStatus (s : State) : BitVec 8 := statusCode s.status

/-- View 4, `PREV` in bits 15:0 and `PREV_VALID` in bit 16 (R38). -/
def viewPrev (s : State) : BitVec 17 := BitVec.ofBool s.prevValid ++ s.prev

/-- View 5, the pin levels, for observation only (R38). The spec gives it no bit layout, so it is a function of the role. -/
def viewLevel (s : State) (p : PinRole) : Level := s.pin p

end Sys2Proof.Machine
end

