-- ==== Sys2Proof/Safety.lean ====
section
/-! DEFINITION. The terms claims use: the end of a run (spec/45_host_actions.md R153), the closed forms of what a word and a
register write leave, and the invariants of the state. -/

namespace Sys2Proof.Safety

open Sys2Proof.Machine

/-! ### The end of a run (45_host_actions.md R153) -/

/-- How a run stands. -/
inductive RunEnd where
  /-- Descriptors are left to dispatch. -/
  | running
  /-- Every descriptor dispatched, no fault, not refused; `aborted` when the final phase is ABORTED. -/
  | done (aborted : Bool)
  | faulted
  | refused
deriving DecidableEq, Repr

/-- R153: only `done` is a good end. -/
def runEnd (s : State) : RunEnd :=
  if s.refused then .refused
  else if s.faults.raised then .faulted
  else if s.stream = [] then .done (s.phase == .aborted)
  else .running

/-- The block may take a step: not refused, no fault set (60_exceptions.md R169 step 1). -/
def CanStep (s : State) : Prop := s.refused = false ∧ s.faults = FaultSet.none

/-! ### What one bus word leaves, in closed form -/

/-- The data lines a word step re-drives (41_bus_writer.md R101, R103, R105, R106), by the set of R103. -/
def drivenLines (s : State) (w : Word) : List (Fin 16) :=
  match cfgVariant s.cfg with
  | .opt16 | .slow16 =>
    if s.prevValid = false ∧ s.cfg.firstWord = .forceFull then List.finRange 16
    else (List.finRange 16).filter fun i => (w ^^^ s.prev).getLsbD i
  | .naive16 => List.finRange 16
  | .latched8 => []
  | .bytew => []

/-- The levels of the data lines after lines `is` are driven to the bits of `w`. -/
def drivenLevels (is : List (Fin 16)) (w : Word) (db : Vector Level 16) : Vector Level 16 :=
  Vector.ofFn fun i => if i ∈ is then levelOf (w.getLsbD i) else db[i]

/-- The level of pin `p` after pin writes `ps`, from level `l`: the last write to it. -/
def levelAfter (p : PinRole) (l : Level) (ps : List (PinRole × Bool)) : Level :=
  match (ps.filter fun q => q.1 == p).getLast? with
  | none => l
  | some q => levelOf q.2

/-- The events of a 16-line word step: WR to `WR_BEGIN`, the lines in order, WR to `WR_LATCH`, the capture. -/
def strobeEvents (c : Cfg) (is : List (Fin 16)) (w : Word) (dc : Level) (db : Vector Level 16) : List Event :=
  [Event.pin .wr c.wrBegin] ++ is.map (fun i => Event.pin (.db i) (w.getLsbD i)) ++
    [Event.pin .wr (wrLatch c), Event.capture dc (drivenLevels is w db)]

/-- The state after one 16-line word step that re-drives lines `is`. -/
def afterStrobe (is : List (Fin 16)) (w : Word) (s : State) : State :=
  { s with
    db := drivenLevels is w s.db
    wr := levelOf (wrLatch s.cfg)
    trace := s.trace ++ strobeEvents s.cfg is w s.dc s.db }

/-- The state after one bus word, variant by variant (41_bus_writer.md R100 to R109). The LATCHED8 levels and the whole word rest on
log entries 10 and 9. -/
def afterWord (w : Word) (s : State) : State :=
  match cfgVariant s.cfg with
  | .opt16 | .slow16 => { afterStrobe (drivenLines s w) w s with prev := w, prevValid := true }
  | .naive16 => afterStrobe (drivenLines s w) w s
  | .latched8 =>
    { s with
      db := Vector.ofFn fun i => levelAfter (.db i) s.db[i] (latchedEvents s w)
      wr := levelOf (wrLatch s.cfg)
      latch := levelAfter .latch s.latch (latchedEvents s w)
      trace := s.trace ++ (latchedEvents s w).map (fun p => Event.pin p.1 p.2) ++
        [Event.capture s.dc (Vector.ofFn fun i => levelOf (w.getLsbD i))] }
  | .bytew =>
    { s with trace := s.trace ++ [Event.byteOut s.dc (w.extractLsb' 8 8), Event.byteOut s.dc (w.extractLsb' 0 8)] }

/-- The state after DC is driven to `l`: the level and one event (00_scope.md R11). -/
def afterDc (l : Bool) (s : State) : State :=
  { s with dc := levelOf l, trace := s.trace ++ [Event.pin .dc l] }

/-- The state after the words of a register write (40_register_protocol.md R90). -/
def afterReg (a : Byte) (v : Option Word) (s : State) : State :=
  let t := afterWord (a.setWidth 16) (afterDc s.cfg.dcCmd s)
  match v with
  | none => t
  | some v => afterWord v (afterDc (!s.cfg.dcCmd) t)

/-- Word k of a WRITE buffer by index (20_memory.md R55): `buf[2k+1] ∥ buf[2k]` under LE, `buf[2k] ∥ buf[2k+1]` under BE. -/
def bufferWord (o : BufOrder) (buf : List Byte) (k : Nat) : Word :=
  match o with
  | .le => buf.getD (2 * k + 1) 0 ++ buf.getD (2 * k) 0
  | .be => buf.getD (2 * k) 0 ++ buf.getD (2 * k + 1) 0

/-- The words of a WRITE buffer by index (20_memory.md R55). -/
def bufferWords (o : BufOrder) (buf : List Byte) : List Word :=
  (List.range (buf.length / 2)).map (bufferWord o buf)

/-- The X and Y register values, from the table of 42_address_window.md R121 with the panel's numbers. -/
def windowTable : Rot → Nat → Nat → Nat × Nat
  | .r0, xs, ys => (xs, ys)
  | .r180, xs, ys => (239 - xs, 319 - ys)
  | .r90, xs, ys => (319 - ys, xs)
  | .r270, xs, ys => (ys, 239 - xs)

/-- The coordinates lie in [0,240)×[0,320) (42_address_window.md R124). -/
def InPanel (xs ys : Word) : Prop := xs.toNat < 240 ∧ ys.toNat < 320

/-- Every entry of `INIT_SEQ` as the register write it stands for (43_init_sequencer.md R131). -/
def initWrites (c : Cfg) : List (Byte × Option Word) :=
  c.initSeq.map fun e =>
    match e with
    | .fixed a v => (a, v)
    | .wave =>
      (c.regWave, some (match c.rot with
        | .r0 => c.waveTable.r0
        | .r90 => c.waveTable.r90
        | .r180 => c.waveTable.r180
        | .r270 => c.waveTable.r270))

/-! ### Frames -/

/-- Only the Bus Link and the trace may differ: nothing the host reads, decides or still has to send has changed, and the
trace has only grown (10_state.md R40). -/
structure OnlyBusChanged (s t : State) : Prop where
  cfg : t.cfg = s.cfg
  pins : t.pins = s.pins
  refused : t.refused = s.refused
  phase : t.phase = s.phase
  faults : t.faults = s.faults
  stream : t.stream = s.stream
  trace : s.trace <+: t.trace

/-- The pin levels and the cache are as before. -/
structure SameLink (s t : State) : Prop where
  db : t.db = s.db
  wr : t.wr = s.wr
  latch : t.latch = s.latch
  prev : t.prev = s.prev
  prevValid : t.prevValid = s.prevValid

/-! ### Words sent, as the trace shows them -/

/-- The bus words of a register write, each with its DC level (30_encoding.md R70, R71). -/
def regWords (c : Cfg) (r : Byte × Option Word) : List (Bool × Word) :=
  (c.dcCmd, r.1.setWidth 16) ::
    match r.2 with
    | none => []
    | some v => [(!c.dcCmd, v)]

/-- A word captured exactly, no `X` (41_bus_writer.md R107). -/
def exactWord (dw : Bool × Word) : Level × Vector Level 16 :=
  (levelOf dw.1, Vector.ofFn fun i => levelOf (dw.2.getLsbD i))

/-- Every word this configuration sends is captured exactly, given `CacheMatchesLines` (41_bus_writer.md R107, R108, R109):
only the differential variants under `TRUST_CACHE` may capture an `X`. -/
def CapturesExactly (c : Cfg) : Prop :=
  c.firstWord = .forceFull ∨ (cfgVariant c ≠ .opt16 ∧ cfgVariant c ≠ .slow16)

/-- The DC writes of a trace, in order. -/
def dcWrites (tr : List Event) : List Bool :=
  tr.filterMap fun e =>
    match e with
    | .pin .dc b => some b
    | _ => none

/-- The data-line writes of a trace, in order. -/
def lineEvents (tr : List Event) : List (Fin 16 × Bool) :=
  tr.filterMap fun e =>
    match e with
    | .pin (.db i) b => some (i, b)
    | _ => none

/-- The WR writes of a trace, in order. -/
def wrWrites (tr : List Event) : List Bool :=
  tr.filterMap fun e =>
    match e with
    | .pin .wr b => some b
    | _ => none

/-! ### Invariants -/

/-- The level of pin `p` a trace leaves: the last one driven, `X` if none (00_scope.md R11, R12). -/
def tracedLevel (p : PinRole) (tr : List Event) : Level :=
  tr.foldl (fun l e => match e with
    | .pin q b => if q = p then levelOf b else l
    | .capture _ _ => l
    | .byteOut _ _ => l) .x

/-- Every pin holds the level its last `Pin` event drove, `X` if it has none (00_scope.md R11, 10_state.md R40). That a
LATCHED8 word keeps this is log entry 10 (DEDUCED, unsafe). -/
def PinsMatchTrace (s : State) : Prop := ∀ p, s.pin p = tracedLevel p s.trace

/-- The variant uses the previous-word cache (10_state.md R30). -/
def UsesCache (c : Cfg) : Prop := cfgVariant c = .opt16 ∨ cfgVariant c = .slow16

/-- No event of the trace has driven pin `p`: the line is as whoever used the bus before left it (00_scope.md R12). -/
def NeverDriven (p : PinRole) (tr : List Event) : Prop := ∀ b, Event.pin p b ∉ tr

/-- The invariant of 10_state.md R32, with what holds before the first word (R20, R30, R31). -/
def CacheMatchesLines (s : State) : Prop :=
  UsesCache s.cfg →
    (s.prevValid = true → ∀ i : Fin 16, s.db[i] = levelOf (s.prev.getLsbD i) ∨
      (s.db[i] = .x ∧ s.cfg.firstWord = .trustCache ∧ s.prev.getLsbD i = false ∧ NeverDriven (.db i) s.trace)) ∧
    (s.prevValid = false → s.prev = 0 ∧ ∀ i : Fin 16, s.db[i] = .x ∧ NeverDriven (.db i) s.trace)

/-- Before READY, and in an aborted bring-up, nothing has reached the bus (44_config_validator.md R142). -/
def SilentUntilReady (s : State) : Prop :=
  s.phase ≠ .ready → s.trace = [] ∧ (∀ p, s.pin p = .x) ∧ s.prev = 0 ∧ s.prevValid = false

/-- `REFUSED` is what attach decided from CFG (70_reset_and_hazards.md R180, R182), and READY means that the validator passed
(10_state.md R33). -/
def AttachDecided (s : State) : Prop :=
  s.refused = cfgRefused s.cfg ∧ (s.phase = .ready → validate s.cfg s.pins = true)

/-- Only assigned pins have been written (10_state.md R25). -/
def OnlyAssignedPins (s : State) : Prop :=
  ∀ p b, Event.pin p b ∈ s.trace → pinAssigned s.pins p = true

/-- State a variant does not use is as attach left it (10_state.md R21, R22, R24, R30). -/
def UnusedStateUntouched (s : State) : Prop :=
  (cfgVariant s.cfg ≠ .latched8 → s.latch = .x) ∧
  (cfgVariant s.cfg = .bytew → s.wr = .x ∧ ∀ i : Fin 16, s.db[i] = .x) ∧
  (cfgVariant s.cfg = .latched8 → ∀ i : Fin 16, 8 ≤ i.val → s.db[i] = .x) ∧
  (¬ UsesCache s.cfg → s.prev = 0 ∧ s.prevValid = false)

/-- On the byte transport the trace holds whole words, two bytes each with one DC level, and no capture; on a GPIO transport
it holds no byte (20_memory.md R58, R66). -/
def WordsAreWhole (s : State) : Prop :=
  match s.cfg.transport with
  | .byte => (∃ ws : List (Level × Word), outBytes s.trace = ws.flatMap fun lw =>
      [(lw.1, lw.2.extractLsb' 8 8), (lw.1, lw.2.extractLsb' 0 8)]) ∧ captureWords s.trace = []
  | .gpio => outBytes s.trace = []

/-- Every word of a GPIO transport has pulsed `WR` once, first to `WR_BEGIN` and then to `WR_LATCH`, and nothing else has
written `WR`; on the byte transport nothing has (10_state.md R22, 70_reset_and_hazards.md R194). -/
def StrobePerWord (s : State) : Prop :=
  wrWrites s.trace =
    match s.cfg.transport with
    | .gpio => (List.replicate (captureWords s.trace).length [s.cfg.wrBegin, wrLatch s.cfg]).flatten
    | .byte => []

end Sys2Proof.Safety
end

