-- ==== Sys2Proof/Certificates/Slice0/Obligations.lean ====
section
/-! DEFINITION. The statements for the provers. Each is about every state, or every state that meets an invariant which is a
statement of its own; no statement rests on a value of State.reset's parameters or of the open latched protocol. -/

open Sys2Proof Sys2Proof.Machine Sys2Proof.Safety

/-! ### Descriptors -/

/-- A few words of 30_encoding.md R78 and the ENC vectors of 95_test_vectors.md decode to the commands they stand for. -/
def Obligations.DecodesKnownWords : Prop :=
  decode [0x10, 0x00] = .instr .verifyGpios [] ∧
  decode [0x20, 0x00, 0xAA] = .instr .initDisplay [0xAA] ∧
  decode [0x30, 0x00, 0x00, 0x0A, 0x00, 0x14, 0xFF, 0xFF, 0x00, 0x00] = .instr (.setAddrWin 10 20 65535 0) [] ∧
  decode [0x40, 0x22] = .instr (.writeRegA 0x22) [] ∧
  decode [0x41, 0x4E, 0x01, 0x3F] = .instr (.writeRegAV 0x4E 0x013F) [] ∧
  decode [0x50, 0x00, 0x00, 0x00, 0x00, 0x02, 0xCD, 0xAB, 0x61] = .instr (.write [0xCD, 0xAB]) [0x61] ∧
  decode [0x60, 0x00] = .instr .hostDcCmd [] ∧
  decode [0x61, 0x00] = .instr .hostDcData []

/-- Decoding an encoded command gives it back, with every operand, and leaves what follows (R76 to R80). -/
def Obligations.DecodeOfEncode : Prop :=
  ∀ (i : Instr) (rest : List Byte), i.wf = true → decode (encode i ++ rest) = .instr i rest

/-- A stream that decodes to a command begins with that command's encoding: no second spelling exists (R78, R81, R83). -/
def Obligations.DecodeReadsOnlyEncodings : Prop :=
  ∀ (bs rest : List Byte) (i : Instr), decode bs = .instr i rest → i.wf = true ∧ bs = encode i ++ rest

/-- 30_encoding.md R81: which headers are illegal, and what an illegal header does. -/
def Obligations.IllegalHeaderEndsCommand : Prop :=
  (∀ (hi lo : Byte) (rest : List Byte),
    (∃ h, decode (hi :: lo :: rest) = .illegal h rest) ↔
      (headerOp (hi ++ lo) = 0 ∨ 7 ≤ (headerOp (hi ++ lo)).toNat ∨ headerRsv (hi ++ lo) ≠ 0 ∨
        (headerV (hi ++ lo) = true ∧ headerOp (hi ++ lo) ≠ 4 ∧ headerOp (hi ++ lo) ≠ 6) ∨
        (headerAddr (hi ++ lo) ≠ 0 ∧ headerOp (hi ++ lo) ≠ 4))) ∧
  (∀ (hi lo : Byte) (rest : List Byte) (h : Word) (rest' : List Byte) (s : State),
    CanStep s → s.stream = hi :: lo :: rest → decode s.stream = .illegal h rest' →
      rest' = rest ∧ step s = .next { s with stream := rest, status := .illegalCommand })

/-- 30_encoding.md R82, with the record of 60_exceptions.md R166: a stream that ends inside a descriptor raises
`F_TRUNCATED`; the command does not run. That the fault shows as a next state which holds it, with no step after it, is the
model's reading: log entry 4. -/
def Obligations.TruncatedDescriptorFaults : Prop :=
  ∀ (i : Instr) (p q : List Byte) (s : State), i.wf = true → encode i = p ++ q → p ≠ [] → q ≠ [] → CanStep s → s.stream = p →
    ∃ t, step s = .next t ∧ t.faults = ⟨none, some p⟩ ∧ t.trace = s.trace ∧
      { t with faults := s.faults, stream := s.stream } = s

/-! ### The step -/

/-- Where the stream begins with a descriptor, `step` is `exec` of its command on the state past it (45_host_actions.md
R151). -/
def Obligations.StepRunsDecodedCommand : Prop :=
  ∀ (s : State) (i : Instr) (rest : List Byte), CanStep s → decode s.stream = .instr i rest →
    step s = exec i { s with stream := rest }

/-- The only states without a step are refused and faulted ones (60_exceptions.md R169 step 1, R165): in every other state,
whatever the stream holds, there is a next state. The reasons a stop names, and the next state on the empty stream, where the
spec has no step, are the model's choice: log entries 4 and 5, and log entry 2. -/
def Obligations.StepStopsOnlyWhenRunIsOver : Prop :=
  ∀ s : State,
    (s.refused = true → step s = .refused (.configRefused (refusalReasons s.cfg))) ∧
    (s.refused = false → s.faults.coord ≠ none ∨ s.faults.truncated ≠ none → step s = .fault (.stopped s.faults)) ∧
    (CanStep s → ∃ t, step s = .next t)

/-- With no byte left the block waits and nothing changes (70_reset_and_hazards.md R181). The waiting step is the model's
choice: log entry 2. -/
def Obligations.StepWaitsForHost : Prop :=
  ∀ s : State, CanStep s → (step s = .next s ↔ s.stream = [])

/-- 60_exceptions.md R168: what every command does in ABORTED, and every command but VERIFY_GPIOS in NEW. -/
def Obligations.PhaseTurnsCommandsAway : Prop :=
  ∀ (i : Instr) (s : State),
    (s.phase = .aborted → exec i s = .next { s with status := .aborted }) ∧
    (s.phase = .new → i ≠ .verifyGpios → exec i s = .next { s with status := .notReady })

/-- 60_exceptions.md R164: a command that ends with a status other than OK has emitted nothing and changed nothing but
STATUS, and PHASE for CONFIG_ERROR. -/
def Obligations.FailedCommandHasNoEffect : Prop :=
  ∀ (s t : State), CanStep s → s.stream ≠ [] → step s = .next t → CanStep t → t.status ≠ .ok →
    t = { s with status := t.status, phase := t.phase, stream := t.stream } ∧
      (t.phase ≠ s.phase → t.status = .configError ∧ t.phase = .aborted)

/-- PHASE moves only by VERIFY_GPIOS, from NEW (10_state.md R33). -/
def Obligations.StepMovesPhaseOnlyByValidation : Prop :=
  ∀ (s t : State), step s = .next t → t.phase ≠ s.phase →
    s.phase = .new ∧ (∃ rest, decode s.stream = .instr .verifyGpios rest) ∧
      (t.phase = .ready ∧ t.status = .ok ∨ t.phase = .aborted ∧ t.status = .configError)

/-! ### Attach and views -/

/-- 70_reset_and_hazards.md R180 with the values of 10_state.md R20, for every choice of parameters. -/
def Obligations.AttachGivesResetValues : Prop :=
  ∀ (c : Cfg) (pins : BitVec 19),
    let s := State.attach c pins
    (∀ p, s.pin p = .x) ∧ s.prev = 0 ∧ s.prevValid = false ∧ s.trace = [] ∧ s.faults = ⟨none, none⟩ ∧
    s.cfg = c ∧ s.pins = pins ∧ s.refused = cfgRefused c ∧
    (c.allocOk = false → s.status = .resourceError ∧ s.phase = .aborted) ∧
    (c.allocOk = true → s.status = .ok ∧ s.phase = .new)

/-- 70_reset_and_hazards.md R182 with the names of 60_exceptions.md R167: when attach refuses, and why; a refused instance has
no step. -/
def Obligations.AttachRefusesListedConfigurations : Prop :=
  ∀ (c : Cfg) (pins : BitVec 19),
    (.latchedSlow ∈ refusalReasons c ↔ c.latched = true ∧ c.slow = true) ∧
    (.naiveMix ∈ refusalReasons c ↔ c.naive = true ∧ (c.latched = true ∨ c.slow = true)) ∧
    (.byteFlags ∈ refusalReasons c ↔ c.transport = .byte ∧ (c.latched = true ∨ c.slow = true ∨ c.naive = true)) ∧
    (.initSeq ∈ refusalReasons c ↔
      ¬ (c.initSeq.count .wave = 1 ∧ (∃ es, c.initSeq = es ++ [.fixed c.regRam none]) ∧ c.initSeq ≠ [])) ∧
    ((State.attach c pins).refused = true ↔ ∃ r, r ∈ refusalReasons c) ∧
    ((State.attach c pins).refused = true →
      ∀ bs t, step { State.attach c pins with stream := bs } ≠ .next t)

/-- Attach meets every invariant stated below, for every choice of parameters; State.reset is one of them. -/
def Obligations.AttachMeetsInvariants : Prop :=
  ∀ (c : Cfg) (pins : BitVec 19),
    let s := State.attach c pins
    CacheMatchesLines s ∧ PinsMatchTrace s ∧ SilentUntilReady s ∧ AttachDecided s ∧ OnlyAssignedPins s ∧
      UnusedStateUntouched s ∧ WordsAreWhole s ∧ StrobePerWord s

/-- The register views hold the fields at the bits and with the codes of 10_state.md R36 to R38, 30_encoding.md R75, 00_scope.md
R9, 10_state.md R33 and 60_exceptions.md R160, reserved bits 0. On a refused instance the VARIANT bits are the model's choice: log
entry 27. -/
def Obligations.ViewsHoldTheirFields : Prop :=
  ∀ s : State,
    let rot := (viewCfg s).extractLsb' 4 2
    let variant := (viewCfg s).extractLsb' 8 3
    ((viewCfg s).getLsbD 0 = true ↔ s.cfg.transport = .byte) ∧ (viewCfg s).getLsbD 1 = s.cfg.latched ∧
    (viewCfg s).getLsbD 2 = s.cfg.slow ∧ (viewCfg s).getLsbD 3 = s.cfg.naive ∧
    ((viewCfg s).getLsbD 6 = true ↔ s.cfg.firstWord = .trustCache) ∧ (viewCfg s).getLsbD 7 = s.cfg.allocOk ∧
    (viewCfg s).extractLsb' 11 5 = 0 ∧
    ((s.cfg.rot = .r0 → rot = 0) ∧ (s.cfg.rot = .r90 → rot = 1) ∧ (s.cfg.rot = .r180 → rot = 2) ∧
      (s.cfg.rot = .r270 → rot = 3)) ∧
    ((cfgVariant s.cfg = .opt16 → variant = 0) ∧ (cfgVariant s.cfg = .slow16 → variant = 1) ∧
      (cfgVariant s.cfg = .naive16 → variant = 2) ∧ (cfgVariant s.cfg = .latched8 → variant = 3) ∧
      (cfgVariant s.cfg = .bytew → variant = 4)) ∧
    ((s.cfg.transport = .byte → variant = 4) ∧
      (s.cfg.transport = .gpio → s.cfg.naive = true → variant = 2) ∧
      (s.cfg.transport = .gpio → s.cfg.naive = false → s.cfg.latched = true → variant = 3) ∧
      (s.cfg.transport = .gpio → s.cfg.naive = false → s.cfg.latched = false → s.cfg.slow = true → variant = 1) ∧
      (s.cfg.transport = .gpio → s.cfg.naive = false → s.cfg.latched = false → s.cfg.slow = false → variant = 0)) ∧
    ((∀ n < 19, (viewPins s).getLsbD n = s.pins.getLsbD n) ∧ (viewPins s).extractLsb' 19 13 = 0 ∧
      (∀ i : Fin 16, pinAssigned s.pins (.db i) = (viewPins s).getLsbD i.val) ∧
      pinAssigned s.pins .wr = (viewPins s).getLsbD 16 ∧ pinAssigned s.pins .dc = (viewPins s).getLsbD 17 ∧
      pinAssigned s.pins .latch = (viewPins s).getLsbD 18) ∧
    ((s.phase = .new → viewPhase s = 0) ∧ (s.phase = .ready → viewPhase s = 1) ∧ (s.phase = .aborted → viewPhase s = 2)) ∧
    ((s.status = .ok → viewStatus s = 0x00) ∧ (s.status = .configError → viewStatus s = 0x01) ∧
      (s.status = .resourceError → viewStatus s = 0x02) ∧ (s.status = .oddLength → viewStatus s = 0x03) ∧
      (s.status = .notAvailable → viewStatus s = 0x04) ∧ (s.status = .illegalCommand → viewStatus s = 0x05) ∧
      (s.status = .notReady → viewStatus s = 0x06) ∧ (s.status = .aborted → viewStatus s = 0x07)) ∧
    ((viewPrev s).extractLsb' 0 16 = s.prev ∧ (viewPrev s).getLsbD 16 = s.prevValid) ∧
    ((∀ i : Fin 16, viewLevel s (.db i) = s.db[i]) ∧ viewLevel s .wr = s.wr ∧ viewLevel s .dc = s.dc ∧
      viewLevel s .latch = s.latch)

/-! ### VERIFY_GPIOS -/

/-- 44_config_validator.md R140, R141: the required pins, and what the command does in each phase. It completes in every
state. -/
def Obligations.VerifyGpiosValidatesRequiredPins : Prop :=
  encode .verifyGpios = [0x10, 0x00] ∧
  ∀ s : State,
    let good := s.pins.getLsbD 17 = true ∧
      (s.cfg.transport = .gpio → s.pins.getLsbD 16 = true ∧
        (s.cfg.latched = true → s.pins.getLsbD 18 = true ∧ ∀ n < 8, s.pins.getLsbD n = true) ∧
        (s.cfg.latched = false → ∀ n < 16, s.pins.getLsbD n = true))
    (s.phase = .aborted → exec .verifyGpios s = .next { s with status := .aborted }) ∧
    (s.phase = .new → good → exec .verifyGpios s = .next { s with phase := .ready, status := .ok }) ∧
    (s.phase = .new → ¬ good → exec .verifyGpios s = .next { s with phase := .aborted, status := .configError }) ∧
    (s.phase = .ready → exec .verifyGpios s = .next { s with status := .ok })

/-! ### The Bus Writer -/

/-- The word step of every variant leaves the state its closed form gives (41_bus_writer.md R100 to R102, R105, R106, R108,
R109). For LATCHED8 the pin writes are the open protocol's, and the whole word and the levels rest on log entries 9 and 10. -/
def Obligations.BusWordHasClosedForm : Prop :=
  ∀ (w : Word) (s : State), busWord w s = afterWord w s

/-- 41_bus_writer.md R103: the lines a differential word step re-drives once the cache is valid, and the two WR writes of every
step. -/
def Obligations.DifferentialWordDrivesChangedLines : Prop :=
  ∀ (w : Word) (s : State), UsesCache s.cfg →
    ∃ evs, (busWord w s).trace = s.trace ++ evs ∧ (wrWrites evs).length = 2 ∧
      (s.prevValid = true →
        lineEvents evs =
          ((List.finRange 16).filter fun i : Fin 16 => (w ^^^ s.prev).getLsbD i).map (fun i : Fin 16 => (i, w.getLsbD i)) ∧
        (w = s.prev → lineEvents evs = []) ∧
        (lineEvents evs).length = (List.range 16).countP (fun i => (w ^^^ s.prev).getLsbD i))

/-- 41_bus_writer.md R107: when a capture is the word, and what it shows of a line never driven. -/
def Obligations.CaptureShowsTheWord : Prop :=
  ∀ (w : Word) (s : State),
    cfgVariant s.cfg = .opt16 ∨ cfgVariant s.cfg = .slow16 ∨ cfgVariant s.cfg = .naive16 →
    CacheMatchesLines s → PinsMatchTrace s →
    ∃ evs L, (busWord w s).trace = s.trace ++ evs ++ [.capture s.dc L] ∧ captureWords evs = [] ∧
      (cfgVariant s.cfg = .naive16 ∨ s.cfg.firstWord = .forceFull → ∀ i : Fin 16, L[i] = levelOf (w.getLsbD i)) ∧
      (s.cfg.firstWord = .trustCache → ∀ i : Fin 16,
        (NeverDriven (.db i) (busWord w s).trace → L[i] = .x ∧ w.getLsbD i = false) ∧
        (¬ NeverDriven (.db i) (busWord w s).trace → L[i] = levelOf (w.getLsbD i)))

/-- 10_state.md R22: on a GPIO transport, in every variant, a word writes WR twice, first to WR_BEGIN and then to WR_LATCH, and
leaves it there; on the byte transport it does not touch WR. DC writes leave WR alone. On LATCHED8 the level WR ends at rests on
log entry 10 (DEDUCED, unsafe). -/
def Obligations.EveryWordPulsesWr : Prop :=
  ∀ s : State,
    (∀ w : Word,
      (s.cfg.transport = .gpio →
        wrWrites (busWord w s).trace = wrWrites s.trace ++ [s.cfg.wrBegin, wrLatch s.cfg] ∧
        (busWord w s).wr = levelOf (wrLatch s.cfg)) ∧
      (s.cfg.transport = .byte → wrWrites (busWord w s).trace = wrWrites s.trace ∧ (busWord w s).wr = s.wr)) ∧
    (∀ b : Bool, wrWrites (pinWrite .dc b s).trace = wrWrites s.trace ∧ (pinWrite .dc b s).wr = s.wr)

/-- 41_bus_writer.md R108 with 10_state.md R22 and 70_reset_and_hazards.md R193: what a LATCHED8 word does, whatever the open
protocol is. That no data line is written before WR_BEGIN is R193's order of a word step, read for LATCHED8 too (DEDUCED, log
entry 9). That the capture is the whole word is the property R108 assumes of the parameter (log entry 9); that the levels are
those of the last pin writes is DEDUCED (log entry 10). -/
def Obligations.LatchedWordFollowsProtocolShape : Prop :=
  ∀ (w : Word) (s : State), cfgVariant s.cfg = .latched8 →
    ∃ ps : List (PinRole × Bool),
      (busWord w s).trace = s.trace ++ ps.map (fun p => Event.pin p.1 p.2) ++ [.capture s.dc (exactWord (true, w)).2] ∧
      (∀ p ∈ ps, p.1 = .wr ∨ p.1 = .latch ∨ ∃ i : Fin 16, i.val < 8 ∧ p.1 = .db i) ∧
      (∃ front, ps = front ++ [(.wr, wrLatch s.cfg)] ∧ levelAfter .wr s.wr front = levelOf s.cfg.wrBegin) ∧
      (ps.filter fun p => p.1 == .wr) = [(.wr, s.cfg.wrBegin), (.wr, wrLatch s.cfg)] ∧
      (∀ front back b (i : Fin 16), ps = front ++ (.db i, b) :: back → (.wr, s.cfg.wrBegin) ∈ front) ∧
      (let wrs := s.wr :: (ps.filter fun p => p.1 == .wr).map (fun p => levelOf p.2)
       (wrs.zip wrs.tail).count (levelOf s.cfg.wrBegin, levelOf (wrLatch s.cfg)) = 1) ∧
      (∀ i : Fin 16, i.val < 8 → (busWord w s).db[i] = levelAfter (.db i) s.db[i] ps) ∧
      (busWord w s).latch = levelAfter .latch s.latch ps ∧ (busWord w s).wr = levelOf (wrLatch s.cfg) ∧
      (busWord w s).prev = s.prev ∧ (busWord w s).prevValid = s.prevValid ∧ (busWord w s).dc = s.dc ∧
      (∀ i : Fin 16, 8 ≤ i.val → (busWord w s).db[i] = s.db[i])

/-- 41_bus_writer.md R105: with the slow flag instead of the optimized writer, every command does the same in every state. -/
def Obligations.SlowVariantEqualsOptimized : Prop :=
  ∀ (i : Instr) (s : State), s.cfg.transport = .gpio → s.cfg.naive = false → s.cfg.latched = false →
    ∃ t, exec i { s with cfg := { s.cfg with slow := false } } = .next t ∧
      exec i { s with cfg := { s.cfg with slow := true } } = .next { t with cfg := { t.cfg with slow := true } }

/-! ### WRITE -/

/-- WRITE completes on a GPIO transport with an even payload, sending the words of the buffer in order (41_bus_writer.md R110,
20_memory.md R55). On LATCHED8 the closed form rests on log entries 9 and 10. -/
def Obligations.WriteSendsBufferWords : Prop :=
  ∀ (payload : List Byte) (s : State), s.phase = .ready → s.cfg.transport = .gpio → payload.length % 2 = 0 →
    exec (.write payload) s =
      .next { (bufferWords s.cfg.bufOrder payload).foldl (fun t w => afterWord w t) s with status := .ok }

/-- 41_bus_writer.md R111 to R113: the writes that send nothing. -/
def Obligations.WriteRejectionsAndZeroLength : Prop :=
  ∀ (payload : List Byte) (s : State), s.phase = .ready →
    (s.cfg.transport = .byte → exec (.write payload) s = .next { s with status := .notAvailable }) ∧
    (s.cfg.transport = .gpio → payload.length % 2 = 1 → exec (.write payload) s = .next { s with status := .oddLength }) ∧
    (s.cfg.transport = .gpio → payload.length = 0 → exec (.write payload) s = .next { s with status := .ok })

/-! ### Register writes -/

/-- WRITE_REG_A completes in READY: DC to command once and one bus word (40_register_protocol.md R90, R91). On
LATCHED8 the closed form rests on log entries 9 and 10. -/
def Obligations.WriteRegASendsAddress : Prop :=
  ∀ (a : Byte) (s : State), s.phase = .ready →
    exec (.writeRegA a) s = .next { afterReg a none s with status := .ok }

/-- WRITE_REG_AV completes in READY: the address as a command, then the value as data (40_register_protocol.md R90, R92).
On LATCHED8 the closed form rests on log entries 9 and 10. -/
def Obligations.WriteRegAVSendsAddressAndValue : Prop :=
  ∀ (a : Byte) (v : Word) (s : State), s.phase = .ready →
    exec (.writeRegAV a v) s = .next { afterReg a (some v) s with status := .ok }

/-- 40_register_protocol.md R93: the events of a register write on the byte transport. -/
def Obligations.RegWriteOnByteTransport : Prop :=
  ∀ (a : Byte) (v : Word) (s : State), s.cfg.transport = .byte →
    regWrite a none s = { s with
      dc := levelOf s.cfg.dcCmd
      trace := s.trace ++ [.pin .dc s.cfg.dcCmd, .byteOut (levelOf s.cfg.dcCmd) 0x00, .byteOut (levelOf s.cfg.dcCmd) a] } ∧
    regWrite a (some v) s = { s with
      dc := levelOf (dcData s.cfg)
      trace := s.trace ++ [.pin .dc s.cfg.dcCmd, .byteOut (levelOf s.cfg.dcCmd) 0x00, .byteOut (levelOf s.cfg.dcCmd) a,
        .pin .dc (dcData s.cfg), .byteOut (levelOf (dcData s.cfg)) (v.extractLsb' 8 8),
        .byteOut (levelOf (dcData s.cfg)) (v.extractLsb' 0 8)] }

/-- What a register write puts on the bus, on every transport, where captures are exact: one DC write and one word per phase,
the words exact (R91, R92, 30_encoding.md R70, R71). On LATCHED8 exactness is the ASSUMED property of log entry 9. -/
def Obligations.RegisterWritesShowOnBus : Prop :=
  ∀ (s : State), s.phase = .ready → CacheMatchesLines s → WordsAreWhole s → CapturesExactly s.cfg →
    (∀ a, ∃ t, exec (.writeRegA a) s = .next t ∧
      words t.cfg.transport t.trace = words s.cfg.transport s.trace ++ [exactWord (s.cfg.dcCmd, a.setWidth 16)] ∧
      dcWrites t.trace = dcWrites s.trace ++ [s.cfg.dcCmd] ∧ t.dc = levelOf s.cfg.dcCmd) ∧
    (∀ a v, ∃ t, exec (.writeRegAV a v) s = .next t ∧
      words t.cfg.transport t.trace = words s.cfg.transport s.trace ++
        [exactWord (s.cfg.dcCmd, a.setWidth 16), exactWord (dcData s.cfg, v)] ∧
      dcWrites t.trace = dcWrites s.trace ++ [s.cfg.dcCmd, dcData s.cfg] ∧ t.dc = levelOf (dcData s.cfg))

/-! ### SET_ADDR_WIN -/

/-- 42_address_window.md R121, R125: the axis table on unbounded integers; on the panel each value is in its range and is its
16-bit word. -/
def Obligations.AxisMapFollowsTable : Prop :=
  ∀ (c : Cfg) (xs ys : Int),
    axisMap c xs ys = (match c.rot with
      | .r0 => (xs, ys)
      | .r180 => (240 - 1 - xs, 320 - 1 - ys)
      | .r90 => (320 - 1 - ys, xs)
      | .r270 => (ys, 240 - 1 - xs)) ∧
    (0 ≤ xs → xs < 240 → 0 ≤ ys → ys < 320 →
      ((BitVec.ofInt 16 (axisMap c xs ys).1).toNat : Int) = (axisMap c xs ys).1 ∧
      ((BitVec.ofInt 16 (axisMap c xs ys).2).toNat : Int) = (axisMap c xs ys).2 ∧
      0 ≤ (axisMap c xs ys).1 ∧ 0 ≤ (axisMap c xs ys).2 ∧
      (c.rot = .r0 ∨ c.rot = .r180 → (axisMap c xs ys).1 ≤ 239 ∧ (axisMap c xs ys).2 ≤ 319) ∧
      (c.rot = .r90 ∨ c.rot = .r270 → (axisMap c xs ys).1 ≤ 319 ∧ (axisMap c xs ys).2 ≤ 239))

/-- 42_address_window.md R126: no two start points of the panel share a counter pair, and 0° and 180° undo themselves. -/
def Obligations.AxisMapIsInjective : Prop :=
  ∀ (c : Cfg) (xs ys xs' ys' : Int), 0 ≤ xs → xs < 240 → 0 ≤ ys → ys < 320 → 0 ≤ xs' → xs' < 240 → 0 ≤ ys' → ys' < 320 →
    (axisMap c xs ys = axisMap c xs' ys' → xs = xs' ∧ ys = ys') ∧
    (c.rot = .r0 ∨ c.rot = .r180 → axisMap c (axisMap c xs ys).1 (axisMap c xs ys).2 = (xs, ys))

/-- SET_ADDR_WIN completes in READY on the panel: X, Y, prime, whatever `xe` and `ye` are (42_address_window.md R122, R123).
On LATCHED8 the closed form rests on log entries 9 and 10. -/
def Obligations.SetAddrWinWritesCountersAndPrime : Prop :=
  ∀ (xs ys xe ye : Word) (s : State), s.phase = .ready → InPanel xs ys →
    let xy := windowTable s.cfg.rot xs.toNat ys.toNat
    exec (.setAddrWin xs ys xe ye) s =
      .next { afterReg s.cfg.regRam none
        (afterReg s.cfg.regY (some (BitVec.ofNat 16 xy.2)) (afterReg s.cfg.regX (some (BitVec.ofNat 16 xy.1)) s))
        with status := .ok }

/-- 42_address_window.md R124: outside the panel, the fault and no event; afterwards there is no step. That the fault shows as a
next state which holds it is the model's reading: log entry 4. -/
def Obligations.SetAddrWinOutsidePanelFaults : Prop :=
  ∀ (xs ys xe ye : Word) (s : State), s.phase = .ready → ¬ InPanel xs ys →
    exec (.setAddrWin xs ys xe ye) s = .next { s with faults := { s.faults with coord := some (xs, ys) } } ∧
    (∀ t, exec (.setAddrWin xs ys xe ye) s = .next t → ∀ u, step t ≠ .next u)

/-- What SET_ADDR_WIN puts on the bus where captures are exact: five words, five DC writes, DC left at command
(42_address_window.md R122). On LATCHED8 exactness is the ASSUMED property of log entry 9. -/
def Obligations.SetAddrWinShowsFiveWords : Prop :=
  ∀ (xs ys xe ye : Word) (s : State), s.phase = .ready → InPanel xs ys → CacheMatchesLines s → WordsAreWhole s →
    CapturesExactly s.cfg →
    let xy := windowTable s.cfg.rot xs.toNat ys.toNat
    ∃ t, exec (.setAddrWin xs ys xe ye) s = .next t ∧
      words t.cfg.transport t.trace = words s.cfg.transport s.trace ++
        [(s.cfg.dcCmd, s.cfg.regX.setWidth 16), (dcData s.cfg, BitVec.ofNat 16 xy.1),
         (s.cfg.dcCmd, s.cfg.regY.setWidth 16), (dcData s.cfg, BitVec.ofNat 16 xy.2),
         (s.cfg.dcCmd, s.cfg.regRam.setWidth 16)].map exactWord ∧
      dcWrites t.trace = dcWrites s.trace ++ [s.cfg.dcCmd, dcData s.cfg, s.cfg.dcCmd, dcData s.cfg, s.cfg.dcCmd] ∧
      t.dc = levelOf s.cfg.dcCmd

/-- What the observer sees after SET_ADDR_WIN: the RAM register selected and the counters at the table's values
(20_memory.md R65, 42_address_window.md R122). On LATCHED8 exactness is the ASSUMED delivery of log entry 9. -/
def Obligations.SetAddrWinObserved : Prop :=
  ∀ (xs ys xe ye : Word) (s t : State) (o : Observation), s.phase = .ready → InPanel xs ys → CacheMatchesLines s →
    WordsAreWhole s → CapturesExactly s.cfg → s.cfg.regX ≠ s.cfg.regY → s.cfg.regX ≠ s.cfg.regRam →
    s.cfg.regY ≠ s.cfg.regRam → exec (.setAddrWin xs ys xe ye) s = .next t → Observes t.cfg t.trace o →
    o.idx = some s.cfg.regRam ∧
    regGet o.regs s.cfg.regX.toNat = some (BitVec.ofNat 16 (windowTable s.cfg.rot xs.toNat ys.toNat).1) ∧
    regGet o.regs s.cfg.regY.toNat = some (BitVec.ofNat 16 (windowTable s.cfg.rot xs.toNat ys.toNat).2)

/-! ### INIT_DISPLAY -/

/-- INIT_DISPLAY completes in READY: every entry as a register write, top to bottom (43_init_sequencer.md R131, R132). On
LATCHED8 the closed form rests on log entries 9 and 10. -/
def Obligations.InitDisplaySendsEveryEntry : Prop :=
  ∀ s : State, s.phase = .ready →
    exec .initDisplay s = .next { (initWrites s.cfg).foldl (fun t r => afterReg r.1 r.2 t) s with status := .ok }

/-- What INIT_DISPLAY leaves, with the sequence an accepted attach has: DC at command, in a differential variant the RAM
register's word in the cache, and, where captures are exact, the RAM register's address as the last word on the bus and as the
index every observation has (43_init_sequencer.md R132, 70_reset_and_hazards.md R188). On LATCHED8 exactness is the ASSUMED
delivery of log entry 9. -/
def Obligations.InitDisplayLeavesRamSelected : Prop :=
  ∀ s : State, s.phase = .ready → AttachDecided s → s.refused = false →
    ∃ t, exec .initDisplay s = .next t ∧ t.status = .ok ∧ t.dc = levelOf s.cfg.dcCmd ∧
      (UsesCache s.cfg → t.prev = s.cfg.regRam.setWidth 16 ∧ t.prevValid = true) ∧
      (CacheMatchesLines s → WordsAreWhole s → CapturesExactly s.cfg →
        (words t.cfg.transport t.trace).getLast? = some (exactWord (s.cfg.dcCmd, s.cfg.regRam.setWidth 16)) ∧
        ∀ o, Observes t.cfg t.trace o → o.idx = some s.cfg.regRam)

/-- 43_init_sequencer.md R134: one run of INIT_DISPLAY and two leave the same terminal register state, after any trace. On
LATCHED8 exactness is the ASSUMED delivery of log entry 9. -/
def Obligations.InitDisplayRerunKeepsRegisters : Prop :=
  ∀ (s t u : State), s.phase = .ready → CacheMatchesLines s → WordsAreWhole s → CapturesExactly s.cfg →
    exec .initDisplay s = .next t → exec .initDisplay t = .next u →
    ∀ (idx : Option Byte) (regs : List (Nat × Word)),
      (∃ o, Observes u.cfg u.trace o ∧ o.idx = idx ∧ o.regs = regs) ↔
      (∃ o, Observes t.cfg t.trace o ∧ o.idx = idx ∧ o.regs = regs)

/-! ### Host pin actions and a pixel burst -/

/-- 45_host_actions.md R150: the host pin actions drive DC, with one event, on every transport, and send no word. -/
def Obligations.HostDcDrivesOnlyDc : Prop :=
  encode .hostDcCmd = [0x60, 0x00] ∧ encode .hostDcData = [0x61, 0x00] ∧
  ∀ s : State, s.phase = .ready →
    exec .hostDcCmd s = .next { s with
      dc := levelOf s.cfg.dcCmd, status := .ok, trace := s.trace ++ [.pin .dc s.cfg.dcCmd] } ∧
    exec .hostDcData s = .next { s with
      dc := levelOf (dcData s.cfg), status := .ok, trace := s.trace ++ [.pin .dc (dcData s.cfg)] }

/-- A pixel burst: with DC at data and the RAM register selected, WRITE adds exactly the buffer's words to the observed GRAM
and nothing else; with DC at command no pixel and no register value is written, and the last word selects a register
(20_memory.md R65, 70_reset_and_hazards.md R187, R188). Nothing is said of DC at X. On LATCHED8 exactness is the ASSUMED delivery
of log entry 9. -/
def Obligations.PixelBurstGoesWhereDcPoints : Prop :=
  ∀ (payload : List Byte) (s t : State), s.phase = .ready → s.cfg.transport = .gpio → payload.length % 2 = 0 →
    CacheMatchesLines s → CapturesExactly s.cfg → exec (.write payload) s = .next t →
    (s.dc = levelOf (dcData s.cfg) → (∀ o, Observes s.cfg s.trace o → o.idx = some s.cfg.regRam) →
      ∀ o', Observes t.cfg t.trace o' ↔
        ∃ o, Observes s.cfg s.trace o ∧ o' = { o with gram := o.gram ++ bufferWords s.cfg.bufOrder payload }) ∧
    (s.dc = levelOf s.cfg.dcCmd →
      ∀ o', Observes t.cfg t.trace o' ↔
        ∃ o, Observes s.cfg s.trace o ∧ o' = { o with
          idx := ((bufferWords s.cfg.bufOrder payload).getLast?.map fun w => w.extractLsb' 0 8).or o.idx })

/-! ### Frames -/

/-- What no command may change, and what each may: the configuration, the pins, the refusal and the rest of the stream never;
PHASE only VERIFY_GPIOS; FAULTS only SET_ADDR_WIN, and nothing clears them; the trace only grows; PREV_VALID is never cleared;
state the variant does not use stays (10_state.md R21, R22, R24, R30, R31, R35, R36, R40). -/
def Obligations.CommandsLeaveTheRestAlone : Prop :=
  ∀ (i : Instr) (s t : State), exec i s = .next t →
    t.cfg = s.cfg ∧ t.pins = s.pins ∧ t.refused = s.refused ∧ t.stream = s.stream ∧ s.trace <+: t.trace ∧
    (s.prevValid = true → t.prevValid = true) ∧
    (i ≠ .verifyGpios → t.phase = s.phase) ∧
    ((∀ xs ys xe ye, i ≠ .setAddrWin xs ys xe ye) → t.faults = s.faults) ∧
    t.faults.truncated = s.faults.truncated ∧ (s.faults.coord ≠ none → t.faults.coord ≠ none) ∧
    (cfgVariant s.cfg ≠ .latched8 → t.latch = s.latch) ∧
    (cfgVariant s.cfg = .bytew → t.db = s.db ∧ t.wr = s.wr) ∧
    (cfgVariant s.cfg = .latched8 → ∀ i : Fin 16, 8 ≤ i.val → t.db[i] = s.db[i]) ∧
    (¬ UsesCache s.cfg → t.prev = s.prev ∧ t.prevValid = s.prevValid)

/-- The frames of the commands that send no word, and of WRITE, which never writes DC (44_config_validator.md R141,
45_host_actions.md R150, 41_bus_writer.md R110). -/
def Obligations.QuietCommandFrames : Prop :=
  ∀ (s t : State),
    (exec .verifyGpios s = .next t → SameLink s t ∧ t.dc = s.dc ∧ t.trace = s.trace ∧ t.faults = s.faults) ∧
    (exec .hostDcCmd s = .next t ∨ exec .hostDcData s = .next t →
      SameLink s t ∧ OnlyBusChanged s t ∧ captureWords t.trace = captureWords s.trace ∧ outBytes t.trace = outBytes s.trace ∧
      lineEvents t.trace = lineEvents s.trace ∧ wrWrites t.trace = wrWrites s.trace) ∧
    (∀ payload, exec (.write payload) s = .next t →
      OnlyBusChanged s t ∧ t.dc = s.dc ∧ dcWrites t.trace = dcWrites s.trace ∧ outBytes t.trace = outBytes s.trace)

/-- The number of bus words each command sends, in every variant and under every first-word policy (70_reset_and_hazards.md
R194): captures on a GPIO transport, pairs of bytes on the byte transport. -/
def Obligations.CommandsSendTheirWordCount : Prop :=
  ∀ (i : Instr) (s t : State), s.phase = .ready → CanStep s → exec i s = .next t → CanStep t → t.status = .ok →
    let n := match i with
      | .verifyGpios | .hostDcCmd | .hostDcData => 0
      | .writeRegA _ => 1
      | .writeRegAV _ _ => 2
      | .setAddrWin _ _ _ _ => 5
      | .initDisplay => s.cfg.initSeq.length + s.cfg.initSeq.countP (fun e => match e with
          | .fixed _ none => false
          | .fixed _ (some _) => true
          | .wave => true)
      | .write payload => payload.length / 2
    (s.cfg.transport = .gpio → (captureWords t.trace).length = (captureWords s.trace).length + n) ∧
    (s.cfg.transport = .byte → (outBytes t.trace).length = (outBytes s.trace).length + 2 * n)

/-! ### Invariants every step keeps -/

/-- 10_state.md R32. -/
def Obligations.StepKeepsCacheInvariant : Prop :=
  ∀ (s t : State), CacheMatchesLines s → step s = .next t → CacheMatchesLines t

/-- Every pin level is the last one the trace drove, X before that (00_scope.md R11, R12, 10_state.md R40). On LATCHED8, where
41_bus_writer.md R108 sets the levels to the protocol's own, this is the model's reading: log entry 10 (DEDUCED, unsafe). -/
def Obligations.StepKeepsPinsMatchTrace : Prop :=
  ∀ (s t : State), PinsMatchTrace s → step s = .next t → PinsMatchTrace t

/-- 44_config_validator.md R142: no event before READY or in an aborted bring-up. -/
def Obligations.StepKeepsSilenceUntilReady : Prop :=
  ∀ (s t : State), step s = .next t →
    (s.phase ≠ .ready → t.trace = s.trace) ∧ (SilentUntilReady s → SilentUntilReady t)

/-- 10_state.md R25: only assigned pins are ever written. -/
def Obligations.StepKeepsOnlyAssignedPins : Prop :=
  ∀ (s t : State), AttachDecided s ∧ OnlyAssignedPins s → step s = .next t → AttachDecided t ∧ OnlyAssignedPins t

/-- What the variant does not use stays as attach left it (10_state.md R21, R22, R24, R30). -/
def Obligations.StepKeepsUnusedStateUntouched : Prop :=
  ∀ (s t : State), UnusedStateUntouched s → step s = .next t → UnusedStateUntouched t

/-- Words are whole on the bus: two bytes with one DC level on the byte transport, no byte on a GPIO transport (20_memory.md
R58, R66). -/
def Obligations.StepKeepsWordsWhole : Prop :=
  ∀ (s t : State), WordsAreWhole s → step s = .next t → WordsAreWhole t

/-- WR is pulsed once a word, first to WR_BEGIN and then to WR_LATCH, and by nothing else (10_state.md R22,
70_reset_and_hazards.md R194). -/
def Obligations.StepKeepsStrobePerWord : Prop :=
  ∀ (s t : State), StrobePerWord s → step s = .next t → StrobePerWord t

/-! ### Whole runs -/

/-- Any stream of whole legal descriptors whose windows lie on the panel runs to a good end, one step per descriptor
(45_host_actions.md R153). -/
def Obligations.LegalStreamRunsToDone : Prop :=
  ∀ (is : List Instr) (s : State), CanStep s → (∀ i ∈ is, i.wf = true) →
    (∀ xs ys xe ye, .setAddrWin xs ys xe ye ∈ is → InPanel xs ys) → s.stream = is.flatMap encode →
    ∃ t, Host.Core.run core is.length s = .next t ∧ runEnd t = .done (t.phase == .aborted)
end

