-- ==== Sys2Proof/Laws/State.lean ====
section
/-! SUPPORT. One lemma per field per update of the state, and the two facts of pin levels: a pin set is read back, every other
pin keeps its level. -/

namespace Sys2Proof.Machine

variable (s : State)

@[simp] theorem State.emit_db (e : Event) : (s.emit e).db = s.db := rfl
@[simp] theorem State.emit_wr (e : Event) : (s.emit e).wr = s.wr := rfl
@[simp] theorem State.emit_dc (e : Event) : (s.emit e).dc = s.dc := rfl
@[simp] theorem State.emit_latch (e : Event) : (s.emit e).latch = s.latch := rfl
@[simp] theorem State.emit_prev (e : Event) : (s.emit e).prev = s.prev := rfl
@[simp] theorem State.emit_prevValid (e : Event) : (s.emit e).prevValid = s.prevValid := rfl
@[simp] theorem State.emit_phase (e : Event) : (s.emit e).phase = s.phase := rfl
@[simp] theorem State.emit_status (e : Event) : (s.emit e).status = s.status := rfl
@[simp] theorem State.emit_faults (e : Event) : (s.emit e).faults = s.faults := rfl
@[simp] theorem State.emit_refused (e : Event) : (s.emit e).refused = s.refused := rfl
@[simp] theorem State.emit_cfg (e : Event) : (s.emit e).cfg = s.cfg := rfl
@[simp] theorem State.emit_pins (e : Event) : (s.emit e).pins = s.pins := rfl
@[simp] theorem State.emit_trace (e : Event) : (s.emit e).trace = s.trace ++ [e] := rfl
@[simp] theorem State.emit_stream (e : Event) : (s.emit e).stream = s.stream := rfl
@[simp] theorem State.emit_pin (e : Event) (q : PinRole) : (s.emit e).pin q = s.pin q := by cases q <;> rfl

@[simp] theorem State.setPrev_db (w : Word) : (s.setPrev w).db = s.db := rfl
@[simp] theorem State.setPrev_wr (w : Word) : (s.setPrev w).wr = s.wr := rfl
@[simp] theorem State.setPrev_dc (w : Word) : (s.setPrev w).dc = s.dc := rfl
@[simp] theorem State.setPrev_latch (w : Word) : (s.setPrev w).latch = s.latch := rfl
@[simp] theorem State.setPrev_prev (w : Word) : (s.setPrev w).prev = w := rfl
@[simp] theorem State.setPrev_prevValid (w : Word) : (s.setPrev w).prevValid = true := rfl
@[simp] theorem State.setPrev_phase (w : Word) : (s.setPrev w).phase = s.phase := rfl
@[simp] theorem State.setPrev_status (w : Word) : (s.setPrev w).status = s.status := rfl
@[simp] theorem State.setPrev_faults (w : Word) : (s.setPrev w).faults = s.faults := rfl
@[simp] theorem State.setPrev_refused (w : Word) : (s.setPrev w).refused = s.refused := rfl
@[simp] theorem State.setPrev_cfg (w : Word) : (s.setPrev w).cfg = s.cfg := rfl
@[simp] theorem State.setPrev_pins (w : Word) : (s.setPrev w).pins = s.pins := rfl
@[simp] theorem State.setPrev_trace (w : Word) : (s.setPrev w).trace = s.trace := rfl
@[simp] theorem State.setPrev_stream (w : Word) : (s.setPrev w).stream = s.stream := rfl
@[simp] theorem State.setPrev_pin (w : Word) (q : PinRole) : (s.setPrev w).pin q = s.pin q := by cases q <;> rfl

@[simp] theorem State.setStatus_db (st : Status) : (s.setStatus st).db = s.db := rfl
@[simp] theorem State.setStatus_wr (st : Status) : (s.setStatus st).wr = s.wr := rfl
@[simp] theorem State.setStatus_dc (st : Status) : (s.setStatus st).dc = s.dc := rfl
@[simp] theorem State.setStatus_latch (st : Status) : (s.setStatus st).latch = s.latch := rfl
@[simp] theorem State.setStatus_prev (st : Status) : (s.setStatus st).prev = s.prev := rfl
@[simp] theorem State.setStatus_prevValid (st : Status) : (s.setStatus st).prevValid = s.prevValid := rfl
@[simp] theorem State.setStatus_phase (st : Status) : (s.setStatus st).phase = s.phase := rfl
@[simp] theorem State.setStatus_status (st : Status) : (s.setStatus st).status = st := rfl
@[simp] theorem State.setStatus_faults (st : Status) : (s.setStatus st).faults = s.faults := rfl
@[simp] theorem State.setStatus_refused (st : Status) : (s.setStatus st).refused = s.refused := rfl
@[simp] theorem State.setStatus_cfg (st : Status) : (s.setStatus st).cfg = s.cfg := rfl
@[simp] theorem State.setStatus_pins (st : Status) : (s.setStatus st).pins = s.pins := rfl
@[simp] theorem State.setStatus_trace (st : Status) : (s.setStatus st).trace = s.trace := rfl
@[simp] theorem State.setStatus_stream (st : Status) : (s.setStatus st).stream = s.stream := rfl
@[simp] theorem State.setStatus_pin (st : Status) (q : PinRole) : (s.setStatus st).pin q = s.pin q := by cases q <;> rfl

@[simp] theorem State.setPhase_db (p : Phase) : (s.setPhase p).db = s.db := rfl
@[simp] theorem State.setPhase_wr (p : Phase) : (s.setPhase p).wr = s.wr := rfl
@[simp] theorem State.setPhase_dc (p : Phase) : (s.setPhase p).dc = s.dc := rfl
@[simp] theorem State.setPhase_latch (p : Phase) : (s.setPhase p).latch = s.latch := rfl
@[simp] theorem State.setPhase_prev (p : Phase) : (s.setPhase p).prev = s.prev := rfl
@[simp] theorem State.setPhase_prevValid (p : Phase) : (s.setPhase p).prevValid = s.prevValid := rfl
@[simp] theorem State.setPhase_phase (p : Phase) : (s.setPhase p).phase = p := rfl
@[simp] theorem State.setPhase_status (p : Phase) : (s.setPhase p).status = s.status := rfl
@[simp] theorem State.setPhase_faults (p : Phase) : (s.setPhase p).faults = s.faults := rfl
@[simp] theorem State.setPhase_refused (p : Phase) : (s.setPhase p).refused = s.refused := rfl
@[simp] theorem State.setPhase_cfg (p : Phase) : (s.setPhase p).cfg = s.cfg := rfl
@[simp] theorem State.setPhase_pins (p : Phase) : (s.setPhase p).pins = s.pins := rfl
@[simp] theorem State.setPhase_trace (p : Phase) : (s.setPhase p).trace = s.trace := rfl
@[simp] theorem State.setPhase_stream (p : Phase) : (s.setPhase p).stream = s.stream := rfl
@[simp] theorem State.setPhase_pin (p : Phase) (q : PinRole) : (s.setPhase p).pin q = s.pin q := by cases q <;> rfl

@[simp] theorem State.setFaults_db (f : FaultSet) : (s.setFaults f).db = s.db := rfl
@[simp] theorem State.setFaults_wr (f : FaultSet) : (s.setFaults f).wr = s.wr := rfl
@[simp] theorem State.setFaults_dc (f : FaultSet) : (s.setFaults f).dc = s.dc := rfl
@[simp] theorem State.setFaults_latch (f : FaultSet) : (s.setFaults f).latch = s.latch := rfl
@[simp] theorem State.setFaults_prev (f : FaultSet) : (s.setFaults f).prev = s.prev := rfl
@[simp] theorem State.setFaults_prevValid (f : FaultSet) : (s.setFaults f).prevValid = s.prevValid := rfl
@[simp] theorem State.setFaults_phase (f : FaultSet) : (s.setFaults f).phase = s.phase := rfl
@[simp] theorem State.setFaults_status (f : FaultSet) : (s.setFaults f).status = s.status := rfl
@[simp] theorem State.setFaults_faults (f : FaultSet) : (s.setFaults f).faults = f := rfl
@[simp] theorem State.setFaults_refused (f : FaultSet) : (s.setFaults f).refused = s.refused := rfl
@[simp] theorem State.setFaults_cfg (f : FaultSet) : (s.setFaults f).cfg = s.cfg := rfl
@[simp] theorem State.setFaults_pins (f : FaultSet) : (s.setFaults f).pins = s.pins := rfl
@[simp] theorem State.setFaults_trace (f : FaultSet) : (s.setFaults f).trace = s.trace := rfl
@[simp] theorem State.setFaults_stream (f : FaultSet) : (s.setFaults f).stream = s.stream := rfl
@[simp] theorem State.setFaults_pin (f : FaultSet) (q : PinRole) : (s.setFaults f).pin q = s.pin q := by cases q <;> rfl

@[simp] theorem State.setStream_db (bs : List Byte) : (s.setStream bs).db = s.db := rfl
@[simp] theorem State.setStream_wr (bs : List Byte) : (s.setStream bs).wr = s.wr := rfl
@[simp] theorem State.setStream_dc (bs : List Byte) : (s.setStream bs).dc = s.dc := rfl
@[simp] theorem State.setStream_latch (bs : List Byte) : (s.setStream bs).latch = s.latch := rfl
@[simp] theorem State.setStream_prev (bs : List Byte) : (s.setStream bs).prev = s.prev := rfl
@[simp] theorem State.setStream_prevValid (bs : List Byte) : (s.setStream bs).prevValid = s.prevValid := rfl
@[simp] theorem State.setStream_phase (bs : List Byte) : (s.setStream bs).phase = s.phase := rfl
@[simp] theorem State.setStream_status (bs : List Byte) : (s.setStream bs).status = s.status := rfl
@[simp] theorem State.setStream_faults (bs : List Byte) : (s.setStream bs).faults = s.faults := rfl
@[simp] theorem State.setStream_refused (bs : List Byte) : (s.setStream bs).refused = s.refused := rfl
@[simp] theorem State.setStream_cfg (bs : List Byte) : (s.setStream bs).cfg = s.cfg := rfl
@[simp] theorem State.setStream_pins (bs : List Byte) : (s.setStream bs).pins = s.pins := rfl
@[simp] theorem State.setStream_trace (bs : List Byte) : (s.setStream bs).trace = s.trace := rfl
@[simp] theorem State.setStream_stream (bs : List Byte) : (s.setStream bs).stream = bs := rfl
@[simp] theorem State.setStream_pin (bs : List Byte) (q : PinRole) : (s.setStream bs).pin q = s.pin q := by cases q <;> rfl

@[simp] theorem State.setPin_prev (p : PinRole) (l : Level) : (s.setPin p l).prev = s.prev := by cases p <;> rfl
@[simp] theorem State.setPin_prevValid (p : PinRole) (l : Level) : (s.setPin p l).prevValid = s.prevValid := by cases p <;> rfl
@[simp] theorem State.setPin_phase (p : PinRole) (l : Level) : (s.setPin p l).phase = s.phase := by cases p <;> rfl
@[simp] theorem State.setPin_status (p : PinRole) (l : Level) : (s.setPin p l).status = s.status := by cases p <;> rfl
@[simp] theorem State.setPin_faults (p : PinRole) (l : Level) : (s.setPin p l).faults = s.faults := by cases p <;> rfl
@[simp] theorem State.setPin_refused (p : PinRole) (l : Level) : (s.setPin p l).refused = s.refused := by cases p <;> rfl
@[simp] theorem State.setPin_cfg (p : PinRole) (l : Level) : (s.setPin p l).cfg = s.cfg := by cases p <;> rfl
@[simp] theorem State.setPin_pins (p : PinRole) (l : Level) : (s.setPin p l).pins = s.pins := by cases p <;> rfl
@[simp] theorem State.setPin_trace (p : PinRole) (l : Level) : (s.setPin p l).trace = s.trace := by cases p <;> rfl
@[simp] theorem State.setPin_stream (p : PinRole) (l : Level) : (s.setPin p l).stream = s.stream := by cases p <;> rfl

/-- A pin set is read back. -/
@[simp] theorem State.pin_setPin_self (p : PinRole) (l : Level) : (s.setPin p l).pin p = l := by
  cases p <;> simp [State.setPin, State.pin]

/-- Every other pin keeps its level. -/
theorem State.pin_setPin_of_ne {p q : PinRole} (h : q ≠ p) (l : Level) : (s.setPin p l).pin q = s.pin q := by
  cases p <;> cases q <;> simp_all [State.setPin, State.pin, Vector.getElem_set, Fin.ext_iff]
  omega

/-- The level of a pin after a set. -/
theorem State.pin_setPin (p q : PinRole) (l : Level) : (s.setPin p l).pin q = if q = p then l else s.pin q := by
  split
  · next h => rw [h, State.pin_setPin_self]
  · next h => exact State.pin_setPin_of_ne s h l

theorem State.pin_db (i : Fin 16) : s.pin (.db i) = s.db[i] := rfl
theorem State.pin_wr : s.pin .wr = s.wr := rfl
theorem State.pin_dc : s.pin .dc = s.dc := rfl
theorem State.pin_latch : s.pin .latch = s.latch := rfl

end Sys2Proof.Machine
end

