-- ==== Sys2Proof/Laws/Ops.lean ====
section
/-! SUPPORT. What the shared operations can do: pin writes, the capture, the byte, ending a command, the phase checks. -/

namespace Sys2Proof.Machine

open Sys2Proof.Safety

/-! ### Pin writes -/

section pinWrite

variable (p : PinRole) (l : Bool) (s : State)

@[simp] theorem pinWrite_trace : (pinWrite p l s).trace = s.trace ++ [.pin p l] := by simp [pinWrite]
@[simp] theorem pinWrite_prev : (pinWrite p l s).prev = s.prev := by simp [pinWrite]
@[simp] theorem pinWrite_prevValid : (pinWrite p l s).prevValid = s.prevValid := by simp [pinWrite]
@[simp] theorem pinWrite_phase : (pinWrite p l s).phase = s.phase := by simp [pinWrite]
@[simp] theorem pinWrite_status : (pinWrite p l s).status = s.status := by simp [pinWrite]
@[simp] theorem pinWrite_faults : (pinWrite p l s).faults = s.faults := by simp [pinWrite]
@[simp] theorem pinWrite_refused : (pinWrite p l s).refused = s.refused := by simp [pinWrite]
@[simp] theorem pinWrite_cfg : (pinWrite p l s).cfg = s.cfg := by simp [pinWrite]
@[simp] theorem pinWrite_pins : (pinWrite p l s).pins = s.pins := by simp [pinWrite]
@[simp] theorem pinWrite_stream : (pinWrite p l s).stream = s.stream := by simp [pinWrite]

/-- The level of a pin after a pin write. -/
theorem pinWrite_pin (q : PinRole) : (pinWrite p l s).pin q = if q = p then levelOf l else s.pin q := by
  simp [pinWrite, State.pin_setPin]

theorem pinWrite_dc_eq : pinWrite .dc l s = afterDc l s := rfl

end pinWrite

section pinWrites

variable (ps : List (PinRole × Bool)) (s : State)

@[simp] theorem pinWrites_nil : pinWrites [] s = s := rfl

@[simp] theorem pinWrites_cons (p : PinRole × Bool) : pinWrites (p :: ps) s = pinWrites ps (pinWrite p.1 p.2 s) := rfl

@[simp] theorem pinWrites_prev : (pinWrites ps s).prev = s.prev := by induction ps generalizing s <;> simp [*]
@[simp] theorem pinWrites_prevValid : (pinWrites ps s).prevValid = s.prevValid := by induction ps generalizing s <;> simp [*]
@[simp] theorem pinWrites_phase : (pinWrites ps s).phase = s.phase := by induction ps generalizing s <;> simp [*]
@[simp] theorem pinWrites_status : (pinWrites ps s).status = s.status := by induction ps generalizing s <;> simp [*]
@[simp] theorem pinWrites_faults : (pinWrites ps s).faults = s.faults := by induction ps generalizing s <;> simp [*]
@[simp] theorem pinWrites_refused : (pinWrites ps s).refused = s.refused := by induction ps generalizing s <;> simp [*]
@[simp] theorem pinWrites_cfg : (pinWrites ps s).cfg = s.cfg := by induction ps generalizing s <;> simp [*]
@[simp] theorem pinWrites_pins : (pinWrites ps s).pins = s.pins := by induction ps generalizing s <;> simp [*]
@[simp] theorem pinWrites_stream : (pinWrites ps s).stream = s.stream := by induction ps generalizing s <;> simp [*]

/-- Every pin write is one event, in order. -/
@[simp] theorem pinWrites_trace : (pinWrites ps s).trace = s.trace ++ ps.map fun p => .pin p.1 p.2 := by
  induction ps generalizing s <;> simp [*]

theorem levelAfter_cons (q : PinRole) (l : Level) (p : PinRole × Bool) :
    levelAfter q l (p :: ps) = levelAfter q (if q = p.1 then levelOf p.2 else l) ps := by
  unfold levelAfter
  by_cases h : p.1 = q
  · simp only [List.filter_cons, h, beq_self_eq_true, if_true, List.getLast?_cons]
    cases (ps.filter fun r => r.1 == q).getLast? <;> simp
  · simp [h, Ne.symm h]

/-- The level of a pin after pin writes: the last write to it. -/
theorem pinWrites_pin (q : PinRole) : (pinWrites ps s).pin q = levelAfter q (s.pin q) ps := by
  induction ps generalizing s with
  | nil => simp [levelAfter]
  | cons p ps ih => rw [pinWrites_cons, ih, levelAfter_cons, pinWrite_pin]

end pinWrites

/-! ### Two states with equal fields -/

/-- States are equal when every pin and every other field is. -/
theorem State.ext_pins {s t : State} (hp : ∀ q, t.pin q = s.pin q) (h1 : t.prev = s.prev) (h2 : t.prevValid = s.prevValid)
    (h3 : t.phase = s.phase) (h4 : t.status = s.status) (h5 : t.faults = s.faults) (h6 : t.refused = s.refused)
    (h7 : t.cfg = s.cfg) (h8 : t.pins = s.pins) (h9 : t.trace = s.trace) (h10 : t.stream = s.stream) : t = s := by
  have hw : t.wr = s.wr := hp .wr
  have hd : t.dc = s.dc := hp .dc
  have hl : t.latch = s.latch := hp .latch
  have hb : t.db = s.db := by
    ext i hi
    exact hp (.db ⟨i, hi⟩)
  cases s; cases t
  simp_all

/-! ### Ending a command, and the phase checks -/

theorem endWith_eq (st : Status) (s : State) : endWith st s = .next { s with status := st } := rfl

theorem whenReady_ready {s : State} (h : s.phase = .ready) (body : State → Host.Outcome State Fault Refusal) :
    whenReady body s = body s := by simp [whenReady, h]

/-- What the phase checks can do: turn the command away with a status, or let it run in READY. -/
theorem whenReady_cases {s : State} {body : State → Host.Outcome State Fault Refusal}
    {o : Host.Outcome State Fault Refusal} (h : whenReady body s = o) :
    (s.phase = .aborted ∧ o = .next (s.setStatus .aborted)) ∨ (s.phase = .new ∧ o = .next (s.setStatus .notReady)) ∨
      (s.phase = .ready ∧ o = body s) := by
  subst h
  unfold whenReady
  cases hp : s.phase <;> simp [endWith]

/-! ### Frames -/

theorem onlyBusChanged_refl (s : State) : OnlyBusChanged s s := ⟨rfl, rfl, rfl, rfl, rfl, rfl, List.prefix_rfl⟩

theorem onlyBusChanged_trans {s t u : State} (h : OnlyBusChanged s t) (k : OnlyBusChanged t u) : OnlyBusChanged s u :=
  ⟨k.cfg.trans h.cfg, k.pins.trans h.pins, k.refused.trans h.refused, k.phase.trans h.phase, k.faults.trans h.faults,
    k.stream.trans h.stream, h.trace.trans k.trace⟩

theorem pinWrite_onlyBus (p : PinRole) (l : Bool) (s : State) : OnlyBusChanged s (pinWrite p l s) := by
  constructor <;> simp

theorem pinWrites_onlyBus (ps : List (PinRole × Bool)) (s : State) : OnlyBusChanged s (pinWrites ps s) := by
  constructor <;> simp

theorem emit_onlyBus (e : Event) (s : State) : OnlyBusChanged s (s.emit e) := by
  constructor <;> simp

theorem setPrev_onlyBus (w : Word) (s : State) : OnlyBusChanged s (s.setPrev w) := by
  constructor <;> simp

end Sys2Proof.Machine
end

