-- ==== Sys2Proof/Laws/Bus.lean ====
section
/-! SUPPORT. What a bus word, a register write and a whole command can do, said once: a bus word changes only the Bus Link and
the trace and leaves DC; a command answers a next state, which it reaches by DC writes and bus words alone or without any. -/

namespace Sys2Proof.Machine

open Sys2Proof.Safety

/-! ### Word steps -/

theorem strobeWord_onlyBus (is : List (Fin 16)) (w : Word) (s : State) : OnlyBusChanged s (strobeWord is w s) :=
  onlyBusChanged_trans (onlyBusChanged_trans (onlyBusChanged_trans (pinWrite_onlyBus _ _ _) (pinWrites_onlyBus _ _))
    (pinWrite_onlyBus _ _ _)) (emit_onlyBus _ _)

/-- A bus word changes nothing outside the Bus Link and the trace. -/
theorem busWord_onlyBus (w : Word) (s : State) : OnlyBusChanged s (busWord w s) := by
  have opt : OnlyBusChanged s (wordOpt16 w s) := onlyBusChanged_trans (strobeWord_onlyBus _ _ _) (setPrev_onlyBus _ _)
  unfold busWord
  cases cfgVariant s.cfg
  · exact opt
  · exact opt
  · exact strobeWord_onlyBus _ _ _
  · exact onlyBusChanged_trans (pinWrites_onlyBus _ _) (emit_onlyBus _ _)
  · exact onlyBusChanged_trans (emit_onlyBus _ _) (emit_onlyBus _ _)

@[simp] theorem busWord_cfg (w : Word) (s : State) : (busWord w s).cfg = s.cfg := (busWord_onlyBus w s).cfg
@[simp] theorem busWord_pins (w : Word) (s : State) : (busWord w s).pins = s.pins := (busWord_onlyBus w s).pins
@[simp] theorem busWord_refused (w : Word) (s : State) : (busWord w s).refused = s.refused := (busWord_onlyBus w s).refused
@[simp] theorem busWord_phase (w : Word) (s : State) : (busWord w s).phase = s.phase := (busWord_onlyBus w s).phase
@[simp] theorem busWord_faults (w : Word) (s : State) : (busWord w s).faults = s.faults := (busWord_onlyBus w s).faults
@[simp] theorem busWord_stream (w : Word) (s : State) : (busWord w s).stream = s.stream := (busWord_onlyBus w s).stream

@[simp] theorem busWord_status (w : Word) (s : State) : (busWord w s).status = s.status := by
  unfold busWord
  cases cfgVariant s.cfg <;> simp [wordSlow16, wordOpt16, wordNaive16, wordLatched8, wordBytew, strobeWord, capture, byteOut]

/-- Whatever the open protocol answers, the latched pin writes touch only the protocol's pins, write `WR` first to `WR_BEGIN`
and then to `WR_LATCH`, touch no data line before that, and end with the `WR_LATCH` write (R108, 10_state.md R22,
70_reset_and_hazards.md R193, R194). -/
theorem latchedEvents_shape (s : State) (w : Word) :
    (∀ p ∈ latchedEvents s w, latchedRole p.1 = true) ∧
      (latchedEvents s w).filter (fun p => p.1 == .wr) = [(.wr, s.cfg.wrBegin), (.wr, wrLatch s.cfg)] ∧
      (latchedEvents s w).find? (fun p => p.1 != .latch) = some (.wr, s.cfg.wrBegin) ∧
      (latchedEvents s w).getLast? = some (.wr, wrLatch s.cfg) := by
  have h : latchedShape s.cfg.wrBegin (latchedEvents s w) = true := by
    unfold latchedEvents
    simp only
    split
    · assumption
    · simp [latchedShape, latchedRole, wrLatch]
  simpa [latchedShape, wrLatch, and_assoc] using h

/-- The roles the latched pin writes may touch (R108): never DC, never DB8 to DB15. -/
theorem latchedEvents_roles (s : State) (w : Word) : ∀ p ∈ latchedEvents s w, latchedRole p.1 = true :=
  (latchedEvents_shape s w).1

theorem levelAfter_of_absent {q : PinRole} {ps : List (PinRole × Bool)} (h : ∀ p ∈ ps, p.1 ≠ q) (l : Level) :
    levelAfter q l ps = l := by
  have : (ps.filter fun p => p.1 == q) = [] := by simpa using h
  simp [levelAfter, this]

/-- The Bus Writer never writes DC (10_state.md R23). -/
@[simp] theorem busWord_dc (w : Word) (s : State) : (busWord w s).dc = s.dc := by
  have strobe : ∀ is, (strobeWord is w s).pin .dc = s.pin .dc := by
    intro is
    rw [strobeWord, capture, State.emit_pin, pinWrite_pin, if_neg (by simp), pinWrites_pin,
      levelAfter_of_absent (by simp [lineWrites]), pinWrite_pin, if_neg (by simp)]
  change (busWord w s).pin .dc = s.pin .dc
  unfold busWord
  cases cfgVariant s.cfg
  · exact strobe _
  · exact strobe _
  · exact strobe _
  · simp only [wordLatched8, State.emit_pin, pinWrites_pin]
    refine levelAfter_of_absent (fun p hp h => ?_) _
    have := latchedEvents_roles s w p hp
    simp [h, latchedRole] at this
  · rfl

/-! ### Reaching a state over the bus -/

/-- `t` is reached from `s` by DC writes and bus words alone. -/
inductive BusReach (s : State) : State → Prop
  | refl : BusReach s s
  | dc (b : Bool) {t : State} : BusReach s t → BusReach s (pinWrite .dc b t)
  | word (w : Word) {t : State} : BusReach s t → BusReach s (busWord w t)

theorem busReach_onlyBus {s t : State} (h : BusReach s t) : OnlyBusChanged s t := by
  induction h with
  | refl => exact onlyBusChanged_refl s
  | dc b _ ih => exact onlyBusChanged_trans ih (pinWrite_onlyBus _ _ _)
  | word w _ ih => exact onlyBusChanged_trans ih (busWord_onlyBus _ _)

theorem busReach_status {s t : State} (h : BusReach s t) : t.status = s.status := by
  induction h with
  | refl => rfl
  | dc b _ ih => simpa using ih
  | word w _ ih => simpa using ih

/-- A property that DC writes and bus words keep holds in every state reached by them. -/
theorem busReach_keeps {P : State → Prop} (hd : ∀ b t, P t → P (pinWrite .dc b t)) (hw : ∀ w t, P t → P (busWord w t))
    {s t : State} (h : BusReach s t) (hs : P s) : P t := by
  induction h with
  | refl => exact hs
  | dc b _ ih => exact hd b _ ih
  | word w _ ih => exact hw w _ ih

theorem busReach_trans {s t u : State} (h : BusReach s t) (k : BusReach t u) : BusReach s u := by
  induction k with
  | refl => exact h
  | dc b _ ih => exact .dc b ih
  | word w _ ih => exact .word w ih

theorem regWrite_busReach (a : Byte) (v : Option Word) (s : State) : BusReach s (regWrite a v s) := by
  cases v with
  | none => exact .word _ (.dc _ .refl)
  | some v => exact .word _ (.dc _ (.word _ (.dc _ .refl)))

@[simp] theorem regWrite_cfg (a : Byte) (v : Option Word) (s : State) : (regWrite a v s).cfg = s.cfg :=
  (busReach_onlyBus (regWrite_busReach a v s)).cfg

theorem busWords_busReach (ws : List Word) (s : State) : BusReach s (busWords ws s) := by
  induction ws generalizing s with
  | nil => exact .refl
  | cons w ws ih => exact busReach_trans (.word w .refl) (ih (busWord w s))

theorem sendEntries_busReach (es : List InitEntry) (s : State) : BusReach s (sendEntries es s) := by
  induction es generalizing s with
  | nil => exact .refl
  | cons e es ih => exact busReach_trans (regWrite_busReach _ _ s) (ih _)

/-! ### What a command can do -/

/-- Everything `exec` can do: turn the command away with a status, validate, raise `F_COORD`, or reach the end of the command
over the bus in phase READY. -/
theorem exec_cases (i : Instr) (s : State) :
    (∃ st, st ≠ .ok ∧ s.phase ≠ .ready ∧ exec i s = .next (s.setStatus st)) ∨
    (∃ st, s.phase = .ready ∧ exec i s = .next (s.setStatus st) ∧ (i = .verifyGpios ∧ st = .ok ∨
      ∃ p, i = .write p ∧ (st = .notAvailable ∧ s.cfg.transport = .byte ∨
        st = .oddLength ∧ s.cfg.transport = .gpio ∧ p.length % 2 = 1))) ∨
    (i = .verifyGpios ∧ s.phase = .new ∧ validate s.cfg s.pins = true ∧
      exec i s = .next ((s.setPhase .ready).setStatus .ok)) ∨
    (i = .verifyGpios ∧ s.phase = .new ∧ validate s.cfg s.pins = false ∧
      exec i s = .next ((s.setPhase .aborted).setStatus .configError)) ∨
    (∃ xs ys xe ye, i = .setAddrWin xs ys xe ye ∧ s.phase = .ready ∧ coordsOk xs ys = false ∧
      exec i s = .next (s.setFaults { s.faults with coord := some (xs, ys) })) ∨
    (∃ u, s.phase = .ready ∧ BusReach s u ∧ exec i s = .next (u.setStatus .ok)) := by
  cases hp : s.phase with
  | aborted =>
    refine .inl ⟨.aborted, by decide, by decide, ?_⟩
    cases i <;> simp only [exec, execVerifyGpios, execInitDisplay, execSetAddrWin, execWriteRegA, execWriteRegAV, execWrite,
      execHostDcCmd, execHostDcData, whenReady, hp] <;> rfl
  | new =>
    cases i with
    | verifyGpios =>
      cases hv : validate s.cfg s.pins with
      | true => exact .inr (.inr (.inl ⟨rfl, rfl, rfl, by simp [exec, execVerifyGpios, hp, hv, endWith]⟩))
      | false => exact .inr (.inr (.inr (.inl ⟨rfl, rfl, rfl, by simp [exec, execVerifyGpios, hp, hv, endWith]⟩)))
    | _ =>
      refine .inl ⟨.notReady, by decide, by decide, ?_⟩
      simp only [exec, execInitDisplay, execSetAddrWin, execWriteRegA, execWriteRegAV, execWrite,
        execHostDcCmd, execHostDcData, whenReady, hp]
      rfl
  | ready =>
    have bus : ∀ u, BusReach s u → exec i s = .next (u.setStatus .ok) →
        ∃ u, Phase.ready = Phase.ready ∧ BusReach s u ∧ exec i s = .next (u.setStatus .ok) := fun u h k => ⟨u, rfl, h, k⟩
    cases i with
    | verifyGpios => exact .inr (.inl ⟨.ok, rfl, by simp [exec, execVerifyGpios, hp, endWith], .inl ⟨rfl, rfl⟩⟩)
    | initDisplay =>
      exact .inr (.inr (.inr (.inr (.inr (bus _ (sendEntries_busReach s.cfg.initSeq s) (by simp [exec, execInitDisplay, whenReady, hp, endWith]))))))
    | setAddrWin xs ys xe ye =>
      cases hc : coordsOk xs ys with
      | false =>
        exact .inr (.inr (.inr (.inr (.inl ⟨xs, ys, xe, ye, rfl, rfl, hc,
          by simp [exec, execSetAddrWin, whenReady, hp, windowBody, hc, raiseCoord]⟩))))
      | true =>
        refine .inr (.inr (.inr (.inr (.inr (bus (regWrite s.cfg.regRam none
          (regWrite s.cfg.regY (some (BitVec.ofInt 16 (axisMap s.cfg xs.toNat ys.toNat).2))
            (regWrite s.cfg.regX (some (BitVec.ofInt 16 (axisMap s.cfg xs.toNat ys.toNat).1)) s))) ?_ ?_)))))
        · exact busReach_trans (busReach_trans (regWrite_busReach _ _ _) (regWrite_busReach _ _ _)) (regWrite_busReach _ _ _)
        · simp [exec, execSetAddrWin, whenReady, hp, windowBody, hc, endWith]
    | writeRegA a =>
      exact .inr (.inr (.inr (.inr (.inr (bus _ (regWrite_busReach a none s) (by simp [exec, execWriteRegA, whenReady, hp, endWith]))))))
    | writeRegAV a v =>
      exact .inr (.inr (.inr (.inr (.inr (bus _ (regWrite_busReach a (some v) s) (by simp [exec, execWriteRegAV, whenReady, hp, endWith]))))))
    | write p =>
      cases ht : s.cfg.transport with
      | byte =>
        exact .inr (.inl ⟨.notAvailable, rfl, by simp [exec, execWrite, whenReady, hp, writeBody, ht, endWith],
          .inr ⟨p, rfl, .inl ⟨rfl, rfl⟩⟩⟩)
      | gpio =>
        by_cases ho : p.length % 2 = 1
        · exact .inr (.inl ⟨.oddLength, rfl, by simp [exec, execWrite, whenReady, hp, writeBody, ht, ho, endWith],
            .inr ⟨p, rfl, .inr ⟨rfl, rfl, ho⟩⟩⟩)
        · exact .inr (.inr (.inr (.inr (.inr (bus _ (busWords_busReach (bufWords s.cfg.bufOrder p) s)
            (by simp [exec, execWrite, whenReady, hp, writeBody, ht, ho, endWith]))))))
    | hostDcCmd =>
      exact .inr (.inr (.inr (.inr (.inr (bus _ (.dc s.cfg.dcCmd .refl) (by simp [exec, execHostDcCmd, whenReady, hp, endWith]))))))
    | hostDcData =>
      exact .inr (.inr (.inr (.inr (.inr (bus _ (.dc (dcData s.cfg) .refl) (by simp [exec, execHostDcData, whenReady, hp, endWith]))))))

/-- Everything `step` can do, in the order of R169. -/
theorem step_cases (s : State) :
    (s.refused = true ∧ step s = .refused (.configRefused (refusalReasons s.cfg))) ∨
    (s.refused = false ∧ s.faults.raised = true ∧ step s = .fault (.stopped s.faults)) ∨
    (s.refused = false ∧ s.faults.raised = false ∧
      ((decode s.stream = .empty ∧ step s = .next s) ∨
       (∃ h rest, decode s.stream = .illegal h rest ∧
          step s = .next ((s.setStream rest).setStatus .illegalCommand)) ∨
       (decode s.stream = .truncated ∧
          step s = .next ((s.setFaults { s.faults with truncated := some s.stream }).setStream [])) ∨
       (∃ i rest, decode s.stream = .instr i rest ∧ step s = exec i (s.setStream rest)))) := by
  unfold step
  cases hr : s.refused
  · cases hf : s.faults.raised
    · refine .inr (.inr ⟨rfl, rfl, ?_⟩)
      cases hd : decode s.stream with
      | empty => exact .inl ⟨rfl, rfl⟩
      | illegal h rest => exact .inr (.inl ⟨h, rest, rfl, rfl⟩)
      | truncated => exact .inr (.inr (.inl ⟨rfl, rfl⟩))
      | instr i rest => exact .inr (.inr (.inr ⟨i, rest, rfl, rfl⟩))
    · exact .inr (.inl ⟨rfl, rfl, rfl⟩)
  · exact .inl ⟨rfl, rfl⟩

end Sys2Proof.Machine
end

