-- ==== Sys2Proof/Laws/Decode.lean ====
section
/-! SUPPORT. Byte order of words, the header of every command read back, and what a decoding can be: a legal header with its
operands, or exactly two bytes of an illegal one. -/

namespace Sys2Proof

@[simp] theorem beWord_bytes (w : Word) : beWord (highByte w) (lowByte w) = w := by
  apply BitVec.eq_of_getLsbD_eq
  intro i hi
  simp only [beWord, highByte, lowByte, BitVec.getLsbD_append, BitVec.getLsbD_extractLsb']
  by_cases h : i < 8
  · simp [h]
  · simp only [h, decide_false, Bool.false_and]
    rw [show 8 + (i - 8) = i by omega]
    simp
    omega

@[simp] theorem highByte_beWord (hi lo : Byte) : highByte (beWord hi lo) = hi := by
  apply BitVec.eq_of_getLsbD_eq
  intro i h
  simp only [beWord, highByte, BitVec.getLsbD_append, BitVec.getLsbD_extractLsb', h, decide_true, Bool.true_and]
  simp

@[simp] theorem lowByte_beWord (hi lo : Byte) : lowByte (beWord hi lo) = lo := by
  apply BitVec.eq_of_getLsbD_eq
  intro i h
  simp only [beWord, lowByte, BitVec.getLsbD_append, BitVec.getLsbD_extractLsb', h, decide_true, Bool.true_and, Nat.zero_add, if_true]

@[simp] theorem wordBytes_length (w : Word) : (wordBytes w).length = 2 := rfl

@[simp] theorem headerAddr_headerWord (op : BitVec 4) (v : BitVec 1) (a : Byte) : headerAddr (headerWord op v a) = a := by
  apply BitVec.eq_of_getLsbD_eq
  intro i h
  simp only [headerAddr, lowByte, headerWord, BitVec.getLsbD_append, BitVec.getLsbD_extractLsb', h, decide_true, Bool.true_and, Nat.zero_add, if_true]

/-- A header with an operand-free low byte is the row its top byte selects. -/
theorem headerKind_writeRegA (a : Byte) : headerKind (headerWord 0x4 0 a) = some .writeRegA := by
  revert a; decide +revert

theorem headerKind_writeRegAV (a : Byte) : headerKind (headerWord 0x4 1 a) = some .writeRegAV := by
  revert a; decide +revert

/-! ### What a decoding can be -/

@[simp] theorem wordBytes_beWord (hi lo : Byte) : wordBytes (beWord hi lo) = [hi, lo] := by simp [wordBytes]

/-- Words are equal when their bytes are. -/
theorem word_ext {x y : Word} (h1 : highByte x = highByte y) (h2 : lowByte x = lowByte y) : x = y := by
  rw [← beWord_bytes x, h1, h2, beWord_bytes]

/-- The mask 0xFF00 keeps the high byte alone. -/
theorem and_ff00 (h : Word) : h &&& 0xFF00 = beWord (highByte h) 0 := by
  rw [← beWord_bytes h]
  generalize highByte h = a
  generalize lowByte h = b
  rw [highByte_beWord]
  apply BitVec.eq_of_getLsbD_eq; intro i hi
  simp only [beWord, BitVec.getLsbD_and, BitVec.getLsbD_append]
  interval_cases i <;> simp

/-- The opcode map read as R78 lists it: the whole header for an opcode without an address, the top byte for WRITE_REG. -/
theorem headerKind_eq (h : Word) : headerKind h =
    if h = 0x1000 then some .verifyGpios else if h = 0x2000 then some .initDisplay
    else if h = 0x3000 then some .setAddrWin else if highByte h = 0x40 then some .writeRegA
    else if highByte h = 0x41 then some .writeRegAV else if h = 0x5000 then some .write
    else if h = 0x6000 then some .hostDcCmd else if h = 0x6100 then some .hostDcData else none := by
  have full : h &&& 0xFFFF = h := by
    rw [show (0xFFFF : Word) = BitVec.allOnes 16 by decide, BitVec.and_allOnes]
  have top : ∀ b : Byte, (beWord (highByte h) 0 == beWord b 0) = (highByte h == b) := by
    intro b
    rw [Bool.eq_iff_iff, beq_iff_eq, beq_iff_eq]
    exact ⟨fun e => by simpa using congrArg highByte e, fun e => by rw [e]⟩
  have t0 := top 0x40
  have t1 := top 0x41
  rw [show beWord 0x40 0 = 0x4000 by decide] at t0
  rw [show beWord 0x41 0 = 0x4100 by decide] at t1
  simp only [headerKind, opcodeMap, OpcodeRow.fits, List.find?_cons, List.find?_nil, full, and_ff00, t0, t1]
  by_cases h1 : h = 0x1000
  · subst h1; rfl
  rw [beq_false_of_ne h1, if_neg h1]
  by_cases h2 : h = 0x2000
  · subst h2; rfl
  rw [beq_false_of_ne h2, if_neg h2]
  by_cases h3 : h = 0x3000
  · subst h3; rfl
  rw [beq_false_of_ne h3, if_neg h3]
  by_cases h4 : highByte h = 0x40
  · rw [h4]; rfl
  rw [beq_false_of_ne h4, if_neg h4]
  by_cases h5 : highByte h = 0x41
  · rw [h5]; rfl
  rw [beq_false_of_ne h5, if_neg h5]
  by_cases h6 : h = 0x5000
  · subst h6; rfl
  rw [beq_false_of_ne h6, if_neg h6]
  by_cases h7 : h = 0x6000
  · subst h7; rfl
  rw [beq_false_of_ne h7, if_neg h7]
  by_cases h8 : h = 0x6100
  · subst h8; rfl
  rw [beq_false_of_ne h8, if_neg h8]
  rfl

/-- The header each row of the opcode map stands for, with its address. -/
def rowHeader : HeaderKind → Byte → Word
  | .verifyGpios, _ => headerWord 0x1 0 0
  | .initDisplay, _ => headerWord 0x2 0 0
  | .setAddrWin, _ => headerWord 0x3 0 0
  | .writeRegA, a => headerWord 0x4 0 a
  | .writeRegAV, a => headerWord 0x4 1 a
  | .write, _ => headerWord 0x5 0 0
  | .hostDcCmd, _ => headerWord 0x6 0 0
  | .hostDcData, _ => headerWord 0x6 1 0

/-- A legal header is its row's header word: it has no other spelling. -/
theorem eq_rowHeader {h : Word} {k : HeaderKind} (hk : headerKind h = some k) : h = rowHeader k (headerAddr h) := by
  have top : ∀ (v : BitVec 1) (a : Byte), highByte (headerWord 0x4 v a) = highByte (headerWord 0x4 v 0) := by decide
  rw [headerKind_eq] at hk
  by_cases h1 : h = 0x1000
  · rw [if_pos h1] at hk; cases hk; exact h1
  rw [if_neg h1] at hk
  by_cases h2 : h = 0x2000
  · rw [if_pos h2] at hk; cases hk; exact h2
  rw [if_neg h2] at hk
  by_cases h3 : h = 0x3000
  · rw [if_pos h3] at hk; cases hk; exact h3
  rw [if_neg h3] at hk
  by_cases h4 : highByte h = 0x40
  · rw [if_pos h4] at hk; cases hk
    refine word_ext (h4.trans ?_) ?_
    · rw [rowHeader, top]; decide
    · exact (headerAddr_headerWord 0x4 0 (headerAddr h)).symm
  rw [if_neg h4] at hk
  by_cases h5 : highByte h = 0x41
  · rw [if_pos h5] at hk; cases hk
    refine word_ext (h5.trans ?_) ?_
    · rw [rowHeader, top]; decide
    · exact (headerAddr_headerWord 0x4 1 (headerAddr h)).symm
  rw [if_neg h5] at hk
  by_cases h6 : h = 0x5000
  · rw [if_pos h6] at hk; cases hk; exact h6
  rw [if_neg h6] at hk
  by_cases h7 : h = 0x6000
  · rw [if_pos h7] at hk; cases hk; exact h7
  rw [if_neg h7] at hk
  by_cases h8 : h = 0x6100
  · rw [if_pos h8] at hk; cases hk; exact h8
  rw [if_neg h8] at hk
  cases hk

/-- The length WRITE reads back is the length it was encoded from (R79). -/
theorem lenOfBytes_encoded {n : Nat} (h : n < 2 ^ 32) :
    lenOfBytes (highByte ((BitVec.ofNat 32 n).extractLsb' 16 16)) (lowByte ((BitVec.ofNat 32 n).extractLsb' 16 16))
      (highByte ((BitVec.ofNat 32 n).extractLsb' 0 16)) (lowByte ((BitVec.ofNat 32 n).extractLsb' 0 16)) = n := by
  simp only [lenOfBytes, beWord_bytes]
  have : ((BitVec.ofNat 32 n).extractLsb' 16 16 ++ (BitVec.ofNat 32 n).extractLsb' 0 16 : BitVec 32) = BitVec.ofNat 32 n := by
    apply BitVec.eq_of_getLsbD_eq
    intro i hi
    simp only [BitVec.getLsbD_append, BitVec.getLsbD_extractLsb']
    by_cases h : i < 16
    · simp [h]
    · simp only [h, if_false]
      rw [show 16 + (i - 16) = i by omega, show decide (i - 16 < 16) = true by simp; omega]
      simp
  rw [this, BitVec.toNat_ofNat, Nat.mod_eq_of_lt h]

/-- The length words of four stream bytes (R79). -/
theorem lenOfBytes_words (b3 b2 b1 b0 : Byte) :
    (BitVec.ofNat 32 (lenOfBytes b3 b2 b1 b0)).extractLsb' 16 16 = beWord b3 b2 ∧
    (BitVec.ofNat 32 (lenOfBytes b3 b2 b1 b0)).extractLsb' 0 16 = beWord b1 b0 := by
  have hv : BitVec.ofNat 32 (lenOfBytes b3 b2 b1 b0) = (beWord b3 b2 ++ beWord b1 b0 : BitVec 32) := by
    simp only [lenOfBytes, BitVec.ofNat_toNat, BitVec.setWidth_eq]
  rw [hv]
  constructor <;> apply BitVec.eq_of_getLsbD_eq <;> intro i hi <;>
    simp only [BitVec.getLsbD_append, BitVec.getLsbD_extractLsb', hi, decide_true, Bool.true_and, Nat.zero_add, if_true]
  simp

/-- Decoding past a legal header. -/
theorem decode_header {h : Word} {k : HeaderKind} (hk : headerKind h = some k) (bs : List Byte) :
    decode (wordBytes h ++ bs) = decodeOperands k (headerAddr h) bs := by
  simp [wordBytes, decode, hk]

/-- Everything a decoding to a command says: a legal header, and its operands. -/
theorem decode_instr {bs rest : List Byte} {i : Instr} (h : decode bs = .instr i rest) :
    ∃ hd k ops, bs = wordBytes hd ++ ops ∧ headerKind hd = some k ∧ decodeOperands k (headerAddr hd) ops = .instr i rest := by
  match bs with
  | [] => cases h
  | [_] => cases h
  | hi :: lo :: ops =>
    simp only [decode] at h
    split at h
    · cases h
    · next k hk => exact ⟨beWord hi lo, k, ops, by simp, hk, h⟩

/-- A stream decodes to an illegal header when its first two bytes name no row; exactly those two bytes are consumed. -/
theorem decode_illegal_iff (hi lo : Byte) (bs : List Byte) (h : Word) (rest : List Byte) :
    decode (hi :: lo :: bs) = .illegal h rest ↔ headerKind (beWord hi lo) = none ∧ h = beWord hi lo ∧ rest = bs := by
  simp only [decode]
  split
  · next hk => simp [hk, eq_comm]
  · next k hk =>
    simp only [hk, reduceCtorEq, false_and, iff_false]
    unfold decodeOperands decodePayload
    repeat' split
    all_goals exact fun e => by cases e

end Sys2Proof
end

