-- ==== Sys2Proof/Laws/Observe.lean ====
section
/-! SUPPORT. The observer's register map: reading after a set, and the canonical form every set keeps; the words of an appended
trace. -/

namespace Sys2Proof.Machine

/-! ### Register map -/

/-- An address set reads back its value; every other address reads as before. -/
theorem regGet_regSet (a b : Nat) (v : Word) (m : List (Nat × Word)) :
    regGet (regSet a v m) b = if b = a then some v else regGet m b := by
  induction m with
  | nil => simp [regSet, regGet]
  | cons p m ih =>
    obtain ⟨c, u⟩ := p
    simp only [regSet]
    split
    · simp [regGet]
    · split
      · next h => subst h; by_cases hb : b = a <;> simp [regGet, hb]
      · next h =>
        simp only [regGet, ih]
        by_cases hc : b = c
        · simp [hc, Ne.symm h]
        · simp [hc]

theorem regSet_mem {a : Nat} {v : Word} {m : List (Nat × Word)} {q : Nat × Word} (h : q ∈ regSet a v m) :
    q = (a, v) ∨ q ∈ m := by
  induction m with
  | nil => simpa [regSet] using h
  | cons p m ih =>
    obtain ⟨c, u⟩ := p
    simp only [regSet] at h
    split at h
    · simpa using h
    · split at h
      · simp only [List.mem_cons] at h ⊢; tauto
      · simp only [List.mem_cons] at h ⊢
        rcases h with h | h
        · tauto
        · have := ih h; tauto

/-- A set keeps the canonical form. -/
theorem regSet_wf (a : Nat) (v : Word) {m : List (Nat × Word)} (h : regMapWf m = true) : regMapWf (regSet a v m) = true := by
  simp only [regMapWf, decide_eq_true_eq] at h ⊢
  induction m with
  | nil => simp [regSet]
  | cons p m ih =>
    obtain ⟨c, u⟩ := p
    rw [List.pairwise_cons] at h
    simp only [regSet]
    split
    · next hac =>
      refine List.pairwise_cons.2 ⟨fun q hq => ?_, List.pairwise_cons.2 h⟩
      rcases List.mem_cons.1 hq with rfl | hq
      · exact hac
      · exact hac.trans (h.1 q hq)
    · split
      · next hac => subst hac; exact List.pairwise_cons.2 h
      · next h1 h2 =>
        refine List.pairwise_cons.2 ⟨fun q hq => ?_, ih h.2⟩
        rcases regSet_mem hq with rfl | hq
        · simp only; omega
        · exact h.1 q hq

theorem regGet_of_lt {m : List (Nat × Word)} {a : Nat} (h : ∀ q ∈ m, a < q.1) : regGet m a = none := by
  induction m with
  | nil => rfl
  | cons p m ih =>
    obtain ⟨c, u⟩ := p
    have hc : a < c := h (c, u) (by simp)
    simp only [regGet, if_neg hc.ne]
    exact ih fun q hq => h q (List.mem_cons_of_mem _ hq)

/-- Two canonical maps that read the same are the same. -/
theorem regMap_ext {m n : List (Nat × Word)} (hm : regMapWf m = true) (hn : regMapWf n = true)
    (h : ∀ a, regGet m a = regGet n a) : m = n := by
  simp only [regMapWf, decide_eq_true_eq] at hm hn
  induction m generalizing n with
  | nil =>
    cases n with
    | nil => rfl
    | cons q n => have := h q.1; simp [regGet] at this
  | cons p m ih =>
    obtain ⟨a, u⟩ := p
    cases n with
    | nil => have := h a; simp [regGet] at this
    | cons q n =>
      obtain ⟨b, v⟩ := q
      rw [List.pairwise_cons] at hm hn
      have ab : a = b := by
        by_contra hne
        have h1 := h a
        have h2 := h b
        simp only [regGet, if_true, if_neg hne, if_neg (Ne.symm hne)] at h1 h2
        rcases Nat.lt_or_gt_of_ne hne with hlt | hlt
        · rw [regGet_of_lt fun q hq => hlt.trans (hn.1 q hq)] at h1; simp at h1
        · rw [regGet_of_lt fun q hq => hlt.trans (hm.1 q hq)] at h2; simp at h2
      subst ab
      have uv : u = v := by simpa [regGet] using h a
      subst uv
      rw [ih (n := n) (fun c => ?_) hm.2 hn.2]
      by_cases hc : c = a
      · rw [hc, regGet_of_lt hm.1, regGet_of_lt hn.1]
      · simpa [regGet, hc] using h c

/-- Every observation's register map is canonical. -/
theorem observeWord_wf (c : Cfg) {o : Observation} (dw : Bool × Word) (h : regMapWf o.regs = true) :
    regMapWf (observeWord c o dw).regs = true := by
  unfold observeWord
  split
  · exact h
  · split
    · exact h
    · split
      · exact h
      · exact regSet_wf _ _ h

theorem observeWords_wf (c : Cfg) (ws : List (Bool × Word)) : regMapWf (observeWords c ws).regs = true := by
  have key : ∀ (ws : List (Bool × Word)) (o : Observation), regMapWf o.regs = true →
      regMapWf (ws.foldl (observeWord c) o).regs = true := by
    intro ws
    induction ws with
    | nil => exact fun o h => h
    | cons w ws ih => exact fun o h => ih _ (observeWord_wf c w h)
  exact key ws _ rfl

/-! ### Words of a trace that grew -/

theorem captureWords_append (es fs : List Event) : captureWords (es ++ fs) = captureWords es ++ captureWords fs := by
  induction es with
  | nil => rfl
  | cons e es ih => cases e <;> simp [captureWords, ih]

theorem outBytes_append (es fs : List Event) : outBytes (es ++ fs) = outBytes es ++ outBytes fs := by
  induction es with
  | nil => rfl
  | cons e es ih => cases e <;> simp [outBytes, ih]

end Sys2Proof.Machine
end

