-- ==== Sys2Proof/Laws/PerInstr.lean ====
section
/-! SUPPORT. A fact of every command's encoding, per constructor: its descriptor has the length of spec/30_encoding.md R80, and
its header is legal and names it (R78). -/

namespace Sys2Proof.Laws

/-- The row of the opcode map a command belongs to (R78). -/
def rowOf : Instr → HeaderKind
  | .verifyGpios => .verifyGpios
  | .initDisplay => .initDisplay
  | .setAddrWin _ _ _ _ => .setAddrWin
  | .writeRegA _ => .writeRegA
  | .writeRegAV _ _ => .writeRegAV
  | .write _ => .write
  | .hostDcCmd => .hostDcCmd
  | .hostDcData => .hostDcData

namespace EncodedForm

/-- The encoding has the length of R80, and begins with a legal header that names the command. -/
def Statement (i : Instr) : Prop :=
  (encode i).length = descriptorLength i ∧
    ∃ h ops, encode i = wordBytes h ++ ops ∧ headerKind h = some (rowOf i)

theorem verifyGpios : Statement .verifyGpios := ⟨rfl, _, [], (List.append_nil _).symm, by decide⟩

theorem initDisplay : Statement .initDisplay := ⟨rfl, _, [], (List.append_nil _).symm, by decide⟩

theorem setAddrWin (xs ys xe ye : Word) : Statement (.setAddrWin xs ys xe ye) :=
  ⟨rfl, headerWord 0x3 0 0, wordBytes xs ++ wordBytes ys ++ wordBytes xe ++ wordBytes ye, by simp [encode],
    (by decide : headerKind (headerWord 0x3 0 0) = some .setAddrWin)⟩

theorem writeRegA (addr : Byte) : Statement (.writeRegA addr) :=
  ⟨rfl, _, [], (List.append_nil _).symm, headerKind_writeRegA addr⟩

theorem writeRegAV (addr : Byte) (value : Word) : Statement (.writeRegAV addr value) :=
  ⟨rfl, _, wordBytes value, rfl, headerKind_writeRegAV addr⟩

theorem write (payload : List Byte) : Statement (.write payload) := by
  refine ⟨by simp [encode, descriptorLength]; omega, headerWord 0x5 0 0, ?_, ?_,
    (by decide : headerKind (headerWord 0x5 0 0) = some .write)⟩
  · exact wordBytes ((BitVec.ofNat 32 payload.length).extractLsb' 16 16) ++
      wordBytes ((BitVec.ofNat 32 payload.length).extractLsb' 0 16) ++ payload
  · simp [encode]

theorem hostDcCmd : Statement .hostDcCmd := ⟨rfl, _, [], (List.append_nil _).symm, by decide⟩

theorem hostDcData : Statement .hostDcData := ⟨rfl, _, [], (List.append_nil _).symm, by decide⟩

end EncodedForm

end Sys2Proof.Laws
end

