-- ==== Sys2Proof/Laws/Run.lean ====
section
/-! SUPPORT. Steps and runs: a command always answers a next state; a property that DC writes, bus words and the plain updates keep
is kept by every step; a run takes its first step first. -/

namespace Sys2Proof.Machine

open Sys2Proof.Safety

theorem raised_iff (f : FaultSet) : f.raised = true ↔ (f.coord ≠ none ∨ f.truncated ≠ none) := by
  obtain ⟨a, b⟩ := f
  cases a <;> cases b <;> simp [FaultSet.raised]

theorem raised_false_iff (f : FaultSet) : f.raised = false ↔ f = FaultSet.none := by
  obtain ⟨a, b⟩ := f
  cases a <;> cases b <;> simp [FaultSet.raised, FaultSet.none]

theorem canStep_raised {s : State} (h : CanStep s) : s.faults.raised = false := (raised_false_iff _).2 h.2

/-- A command answers a next state in every state. -/
theorem exec_next (i : Instr) (s : State) : ∃ t, exec i s = .next t := by
  rcases exec_cases i s with ⟨_, _, _, h⟩ | ⟨_, _, h, _⟩ | ⟨_, _, _, h⟩ | ⟨_, _, _, h⟩ | ⟨_, _, _, _, _, _, _, h⟩ | ⟨_, _, _, h⟩ <;>
    exact ⟨_, h⟩

/-- A command leaves the stream to the step. -/
theorem exec_stream {i : Instr} {s t : State} (h : exec i s = .next t) : t.stream = s.stream := by
  rcases exec_cases i s with ⟨_, _, _, k⟩ | ⟨_, _, k, _⟩ | ⟨_, _, _, k⟩ | ⟨_, _, _, k⟩ | ⟨_, _, _, _, _, _, _, k⟩ | ⟨u, _, hu, k⟩ <;>
    rw [k] at h <;> cases h
  all_goals first | rfl | exact (busReach_onlyBus hu).stream

/-- The one induction of every invariant: what DC writes, bus words and the plain updates keep, a step keeps. -/
theorem step_keeps {P : State → Prop} (dc : ∀ b t, P t → P (pinWrite .dc b t)) (word : ∀ w t, P t → P (busWord w t))
    (status : ∀ st t, P t → P (t.setStatus st)) (stream : ∀ bs t, P t → P (t.setStream bs))
    (faults : ∀ f t, P t → P (t.setFaults f))
    (ready : ∀ t, t.phase = .new → validate t.cfg t.pins = true → P t → P (t.setPhase .ready))
    (aborted : ∀ t, P t → P (t.setPhase .aborted)) {s t : State} (hs : P s) (h : step s = .next t) : P t := by
  rcases step_cases s with ⟨_, k⟩ | ⟨_, _, k⟩ | ⟨_, _, ⟨_, k⟩ | ⟨_, _, _, k⟩ | ⟨_, k⟩ | ⟨i, rest, _, k⟩⟩ <;> rw [k] at h
  · cases h
  · cases h
  · cases h; exact hs
  · cases h; exact status _ _ (stream _ _ hs)
  · cases h; exact stream _ _ (faults _ _ hs)
  · have hs' := stream rest _ hs
    rcases exec_cases i (s.setStream rest) with ⟨_, _, _, k⟩ | ⟨_, _, k, _⟩ | ⟨_, hp, hv, k⟩ | ⟨_, _, _, k⟩ |
      ⟨_, _, _, _, _, _, _, k⟩ | ⟨u, _, hu, k⟩ <;> rw [k] at h <;> cases h
    · exact status _ _ hs'
    · exact status _ _ hs'
    · exact status _ _ (ready _ hp hv hs')
    · exact status _ _ (aborted _ hs')
    · exact faults _ _ hs'
    · exact status _ _ (busReach_keeps dc word hu hs')

/-- A run of one step more goes on from the next state. -/
theorem run_next {M : Host.Core} {s t : M.State} (h : M.step s = .next t) (n : Nat) :
    Host.Core.run M (n + 1) s = Host.Core.run M n t := by
  rw [show Host.Core.run M (n + 1) s = (match M.step s with
    | .next s' => Host.Core.run M n s'
    | .fault r => .fault r
    | .refused r => .refused r) from rfl, h]

end Sys2Proof.Machine
end

