-- ==== Sys2Proof/Laws/Trace.lean ====
section
/-! SUPPORT. What an appended trace shows: the pin levels it leaves, its writes and words, and what the observer reads of words
captured exactly. -/

namespace Sys2Proof.Machine

open Sys2Proof.Safety

/-! ### Levels and writes -/

theorem tracedLevel_append (p : PinRole) (tr : List Event) (e : Event) :
    tracedLevel p (tr ++ [e]) =
      (match e with
        | .pin q b => if q = p then levelOf b else tracedLevel p tr
        | .capture _ _ => tracedLevel p tr
        | .byteOut _ _ => tracedLevel p tr) := by
  cases e <;> simp [tracedLevel]

theorem lineEvents_append (es fs : List Event) : lineEvents (es ++ fs) = lineEvents es ++ lineEvents fs := by simp [lineEvents]
theorem wrWrites_append (es fs : List Event) : wrWrites (es ++ fs) = wrWrites es ++ wrWrites fs := by simp [wrWrites]
theorem dcWrites_append (es fs : List Event) : dcWrites (es ++ fs) = dcWrites es ++ dcWrites fs := by simp [dcWrites]

/-- Pin writes carry no word. -/
theorem captureWords_pins {α : Type} (p : α → PinRole) (b : α → Bool) (l : List α) :
    captureWords (l.map fun a => Event.pin (p a) (b a)) = [] := by
  induction l with
  | nil => rfl
  | cons a l ih => simpa [captureWords] using ih

theorem outBytes_pins {α : Type} (p : α → PinRole) (b : α → Bool) (l : List α) :
    outBytes (l.map fun a => Event.pin (p a) (b a)) = [] := by
  induction l with
  | nil => rfl
  | cons a l ih => simpa [outBytes] using ih

/-! ### A 16-line word step -/

section strobe

variable (c : Cfg) (is : List (Fin 16)) (w : Word) (dc : Level) (db : Vector Level 16)

theorem lineEvents_strobe : lineEvents (strobeEvents c is w dc db) = is.map fun i : Fin 16 => (i, w.getLsbD i) := by
  simp only [strobeEvents, lineEvents_append]
  simp [lineEvents]

theorem wrWrites_strobe : wrWrites (strobeEvents c is w dc db) = [c.wrBegin, wrLatch c] := by
  have : wrWrites (is.map fun i : Fin 16 => Event.pin (.db i) (w.getLsbD i)) = [] := by simp [wrWrites]
  simp only [strobeEvents, wrWrites_append, this]
  simp [wrWrites]

theorem dcWrites_strobe : dcWrites (strobeEvents c is w dc db) = [] := by
  simp only [strobeEvents, dcWrites_append]
  simp [dcWrites]

theorem captureWords_strobe : captureWords (strobeEvents c is w dc db) = [(dc, drivenLevels is w db)] := by
  simp only [strobeEvents, captureWords_append, captureWords_pins]
  rfl

theorem outBytes_strobe : outBytes (strobeEvents c is w dc db) = [] := by
  simp only [strobeEvents, outBytes_append, outBytes_pins]
  rfl

end strobe

/-! ### A latched word -/

/-- The WR writes among a list of pin writes. -/
theorem wrWrites_pins (ps : List (PinRole × Bool)) :
    wrWrites (ps.map fun p => Event.pin p.1 p.2) = (ps.filter fun p => p.1 == .wr).map (·.2) := by
  induction ps with
  | nil => rfl
  | cons p ps ih =>
    obtain ⟨q, b⟩ := p
    cases q <;> simpa [wrWrites] using ih

/-- A latched word writes `WR` first to `WR_BEGIN`, then to `WR_LATCH`, whatever the open protocol is (10_state.md R22). -/
theorem wrWrites_latched {w : Word} {s : State} (h : cfgVariant s.cfg = .latched8) :
    wrWrites (busWord w s).trace = wrWrites s.trace ++ [s.cfg.wrBegin, wrLatch s.cfg] := by
  simp only [busWord, h, wordLatched8, State.emit_trace, pinWrites_trace, wrWrites_append, wrWrites_pins,
    (latchedEvents_shape s w).2.1]
  simp [wrWrites]

/-! ### The observer on exact words -/

@[simp] theorem levelReads_levelOf (a b : Bool) : levelReads (levelOf a) b ↔ b = a := by
  cases a <;> cases b <;> simp [levelReads, levelOf]

/-- A word captured exactly is read in one way. -/
theorem wordReads_exactWord (dw x : Bool × Word) : wordReads (exactWord dw) x ↔ x = dw := by
  obtain ⟨b, w⟩ := dw
  obtain ⟨c, v⟩ := x
  simp only [wordReads, exactWord, levelReads_levelOf, Fin.getElem_fin, Vector.getElem_ofFn]
  constructor
  · rintro ⟨rfl, h⟩
    exact congrArg _ (BitVec.eq_of_getLsbD_eq fun i hi => h ⟨i, hi⟩)
  · rintro ⟨⟩
    exact ⟨rfl, fun _ => rfl⟩

theorem forall2_exactWords (ws xs : List (Bool × Word)) : List.Forall₂ wordReads (ws.map exactWord) xs ↔ xs = ws := by
  induction ws generalizing xs with
  | nil => simp
  | cons w ws ih =>
    rw [List.map_cons]
    constructor
    · rintro ⟨⟩
      next h1 h2 => rw [(wordReads_exactWord _ _).1 h1, (ih _).1 h2]
    · rintro rfl
      exact .cons ((wordReads_exactWord _ _).2 rfl) ((ih _).2 rfl)

theorem forall2_append {α β : Type} {R : α → β → Prop} {a b : List α} {xs : List β} :
    List.Forall₂ R (a ++ b) xs ↔ ∃ l r, List.Forall₂ R a l ∧ List.Forall₂ R b r ∧ xs = l ++ r := by
  constructor
  · intro h
    induction a generalizing xs with
    | nil => exact ⟨[], xs, .nil, h, rfl⟩
    | cons x a ih =>
      cases h with
      | cons h1 h2 =>
        obtain ⟨l, r, h3, h4, rfl⟩ := ih h2
        exact ⟨_ :: l, r, .cons h1 h3, h4, rfl⟩
  · rintro ⟨l, r, h, k, rfl⟩
    induction h with
    | nil => exact k
    | cons h1 _ ih => exact .cons h1 ih

/-- A trace that grew by exact words: every observation of it goes on from one of the shorter trace. -/
theorem observes_append {c : Cfg} {tr tr' : List Event} {ws : List (Bool × Word)}
    (h : words c.transport tr' = words c.transport tr ++ ws.map exactWord) (o' : Observation) :
    Observes c tr' o' ↔ ∃ o, Observes c tr o ∧ o' = ws.foldl (observeWord c) o := by
  simp only [Observes, h, forall2_append, forall2_exactWords]
  constructor
  · rintro ⟨_, ⟨l, _, hl, rfl, rfl⟩, rfl⟩
    exact ⟨_, ⟨l, hl, rfl⟩, by simp [observeWords]⟩
  · rintro ⟨_, ⟨l, hl, rfl⟩, rfl⟩
    exact ⟨l ++ ws, ⟨l, ws, hl, rfl, rfl⟩, by simp [observeWords]⟩

/-- The low byte of an address word is the address (spec/30_encoding.md R70). -/
@[simp] theorem lowByte_addrWord (a : Byte) : lowByte (a.setWidth 16) = a := by
  apply BitVec.eq_of_getLsbD_eq
  intro i hi
  simp only [lowByte, BitVec.getLsbD_extractLsb', BitVec.getLsbD_setWidth, hi, decide_true, Bool.true_and, Nat.zero_add]
  simp
  omega

end Sys2Proof.Machine
end

