-- ==== Sys2Proof/Laws/Words.lean ====
section
/-! SUPPORT. The word steps and their operands in closed form: a 16-line word step, the lines OPT16 re-drives, the
words of a buffer, the coordinate check. -/

namespace Sys2Proof.Machine

open Sys2Proof.Safety

/-! ### A 16-line word step -/

theorem levelAfter_nil (q : PinRole) (l : Level) : levelAfter q l [] = l := rfl

/-- A line after its word's line writes: the word's bit if the line is among them. -/
theorem levelAfter_lineWrites (is : List (Fin 16)) (w : Word) (i : Fin 16) (l : Level) :
    levelAfter (.db i) l (lineWrites is w) = if i ∈ is then levelOf (w.getLsbD i) else l := by
  induction is generalizing l with
  | nil => rfl
  | cons j is ih =>
    rw [lineWrites, List.map_cons, levelAfter_cons]
    change levelAfter _ _ (lineWrites is w) = _
    rw [ih]
    by_cases h : i = j
    · subst h; simp
    · by_cases h2 : i ∈ is <;> simp [h, h2]

/-- Line writes touch data lines alone. -/
theorem lineWrites_lines {is : List (Fin 16)} {w : Word} {q : PinRole} (hq : ∀ i, q ≠ .db i) :
    ∀ p ∈ lineWrites is w, p.1 ≠ q := by
  intro p hp
  simp only [lineWrites, List.mem_map] at hp
  obtain ⟨i, _, rfl⟩ := hp
  exact (hq i).symm

@[simp] theorem drivenLevels_get (is : List (Fin 16)) (w : Word) (db : Vector Level 16) (i : Fin 16) :
    (drivenLevels is w db)[i] = if i ∈ is then levelOf (w.getLsbD i) else db[i] := by
  simp only [drivenLevels, Fin.getElem_fin, Vector.getElem_ofFn]

/-- A 16-line word step in closed form (spec/41_bus_writer.md R101, R102, R106). -/
theorem strobeWord_eq (is : List (Fin 16)) (w : Word) (s : State) : strobeWord is w s = afterStrobe is w s := by
  have hdb : (pinWrite .wr (wrLatch s.cfg) (pinWrites (lineWrites is w) (pinWrite .wr s.cfg.wrBegin s))).db =
      drivenLevels is w s.db := by
    ext i hi
    change (pinWrite .wr (wrLatch s.cfg) (pinWrites (lineWrites is w) (pinWrite .wr s.cfg.wrBegin s))).pin (.db ⟨i, hi⟩) = _
    have hne : ¬ PinRole.db ⟨i, hi⟩ = .wr := by simp
    rw [pinWrite_pin, if_neg hne, pinWrites_pin, levelAfter_lineWrites, pinWrite_pin, if_neg hne]
    exact (drivenLevels_get is w s.db ⟨i, hi⟩).symm
  have hq : ∀ q, (∀ i, q ≠ .db i) → q ≠ .wr → (strobeWord is w s).pin q = s.pin q := by
    intro q h1 h2
    rw [strobeWord, capture, State.emit_pin, pinWrite_pin, if_neg h2, pinWrites_pin,
      levelAfter_of_absent (lineWrites_lines h1), pinWrite_pin, if_neg h2]
  refine State.ext_pins ?_ ?_ ?_ ?_ ?_ ?_ ?_ ?_ ?_ ?_ ?_
  · intro q
    cases q with
    | db i =>
      change (pinWrite .wr (wrLatch s.cfg) (pinWrites (lineWrites is w) (pinWrite .wr s.cfg.wrBegin s))).db[i] =
        (drivenLevels is w s.db)[i]
      rw [hdb]
    | wr => rw [strobeWord, capture, State.emit_pin, pinWrite_pin, if_pos rfl]; rfl
    | dc => exact hq _ (by simp) (by simp)
    | latch => exact hq _ (by simp) (by simp)
  all_goals try (simp [strobeWord, capture, afterStrobe]; done)
  have hdc : (pinWrite .wr (wrLatch s.cfg) (pinWrites (lineWrites is w) (pinWrite .wr s.cfg.wrBegin s))).dc = s.dc :=
    hq .dc (by simp) (by simp)
  simp only [strobeWord, capture, State.emit_trace, hdb, hdc, afterStrobe, strobeEvents]
  simp [lineWrites]

/-- The lines a differential variant re-drives, as the set of spec/41_bus_writer.md R103. -/
theorem drivenLines_usesCache {s : State} (h : UsesCache s.cfg) (w : Word) :
    drivenLines s w = if s.prevValid = false ∧ s.cfg.firstWord = .forceFull then List.finRange 16
      else (List.finRange 16).filter fun i : Fin 16 => (w ^^^ s.prev).getLsbD i := by
  unfold drivenLines
  rcases h with h | h <;> rw [h]

/-- The lines OPT16 re-drives are that set. -/
theorem optLines_eq {s : State} (h : UsesCache s.cfg) (w : Word) : optLines s w = drivenLines s w := by
  rw [drivenLines_usesCache h, optLines]
  split
  · rfl
  · split
    · next h => subst h; simp
    · simp only [changedLines, allLines]
      congr 1
      funext i
      simp

/-! ### Operands -/

/-- The words of a buffer, taken in turn, are its words by index (spec/20_memory.md R55). -/
theorem bufWords_eq (o : BufOrder) (buf : List Byte) : bufWords o buf = bufferWords o buf := by
  induction buf using List.twoStepInduction with
  | nil => rfl
  | singleton x => simp [bufWords, bufferWords]
  | cons_cons x y xs ih _ =>
    have shift : ∀ k, bufferWord o (x :: y :: xs) (k + 1) = bufferWord o xs k := by
      intro k
      cases o <;> simp [bufferWord, Nat.mul_add]
    simp only [bufWords, ih, bufferWords]
    rw [show (x :: y :: xs).length / 2 = xs.length / 2 + 1 by simp; omega, List.range_succ_eq_map, List.map_cons, List.map_map]
    simp only [Function.comp_def, Nat.succ_eq_add_one, shift]
    cases o <;> rfl

theorem coordsOk_iff (xs ys : Word) : coordsOk xs ys = true ↔ InPanel xs ys := by
  rw [coordsOk, Bool.and_eq_true, decide_eq_true_eq, decide_eq_true_eq]
  rfl

theorem cfgVariant_byte {c : Cfg} (h : c.transport = .byte) : cfgVariant c = .bytew := by simp [cfgVariant, h]

theorem cfgVariant_gpio {c : Cfg} (h : c.transport = .gpio) : cfgVariant c ≠ .bytew := by
  simp only [cfgVariant, h]
  repeat' split
  all_goals simp

end Sys2Proof.Machine
end

