-- ==== Sys2Proof/Tests/Slice0.lean ====
section
/-! SUPPORT. Tests: words of every family written out from spec/30_encoding.md, one-step tests whose results are the vectors of
spec/95_test_vectors.md, and a witness for every statement that has hypotheses. -/

namespace Sys2Proof.Tests

open Sys2Proof Sys2Proof.Machine Sys2Proof.Safety

/-! ### Helpers -/

/-- The test configuration: the defaults of R8 with T1 (95_test_vectors.md), on the given transport and flags. -/
def testCfg (t : Transport) (latched slow naive : Bool) (rot : Rot) : Cfg :=
  { resetCfg with transport := t, latched := latched, slow := slow, naive := naive, rot := rot }

def opt16 : Cfg := testCfg .gpio false false false .r0
def slow16 : Cfg := testCfg .gpio false true false .r0
def naive16 : Cfg := testCfg .gpio false false true .r0
def latched8 : Cfg := testCfg .gpio true false false .r0
def bytew : Cfg := testCfg .byte false false false .r0
def trusting : Cfg := { opt16 with firstWord := .trustCache }

/-- An attached instance in phase READY, every pin assigned. -/
def ready (c : Cfg) : State := { State.attach c 0x7FFFF with phase := .ready }

/-- An attached instance with a command stream. -/
def fed (c : Cfg) (bs : List Byte) : State := { State.attach c 0x7FFFF with stream := bs }

/-- READY with the word `w` on the lines and in the cache, as after one word. -/
def sent (c : Cfg) (w : Word) : State := { ready c with db := wordLevels w, prev := w, prevValid := true }

/-- The state an outcome answers; `s` where it answers none. -/
def nextOr (s : State) (o : Host.Outcome State Fault Refusal) : State :=
  match o with
  | .next t => t
  | .fault _ => s
  | .refused _ => s

/-- The state after a command. -/
def run (i : Instr) (s : State) : State := nextOr s (exec i s)

theorem exec_run (i : Instr) (s : State) : exec i s = .next (run i s) := by
  obtain ⟨t, h⟩ := exec_next i s
  simp [run, h, nextOr]

/-! ### Well-formedness -/

theorem wf_write (p : List Byte) : (Instr.write p).wf = decide (p.length < 2 ^ 32) := rfl

/-- R79: a payload of 2^32 bytes has no length field. -/
theorem test_wf_refuses_long_payload : (Instr.write (List.replicate (2 ^ 32) 0)).wf = false := by
  rw [wf_write, List.length_replicate, decide_eq_false_iff_not]
  exact Nat.lt_irrefl _

theorem test_wf_accepts_empty_payload : (Instr.write []).wf = true := by decide

/-! ### Decoding, from the encodings of R77, R78 written bit by bit -/

theorem test_decode_verify_gpios : decode [0b00010000, 0b00000000] = .instr .verifyGpios [] := by decide
theorem test_decode_init_display : decode [0b00100000, 0b00000000] = .instr .initDisplay [] := by decide
theorem test_decode_set_addr_win :
    decode [0b00110000, 0b00000000, 0x00, 0x0A, 0x00, 0x14, 0xFF, 0xFF, 0x00, 0x00] =
      .instr (.setAddrWin 10 20 65535 0) [] := by decide
theorem test_decode_write_reg_a : decode [0b01000000, 0b00100010] = .instr (.writeRegA 0x22) [] := by decide
theorem test_decode_write_reg_av : decode [0b01000001, 0b11111111, 0x01, 0x3F] = .instr (.writeRegAV 0xFF 0x013F) [] := by decide
theorem test_decode_write :
    decode [0b01010000, 0b00000000, 0x00, 0x00, 0x00, 0x03, 0x01, 0x02, 0x03, 0x70] =
      .instr (.write [0x01, 0x02, 0x03]) [0x70] := by decide
theorem test_decode_host_dc_cmd : decode [0b01100000, 0b00000000] = .instr .hostDcCmd [] := by decide
theorem test_decode_host_dc_data : decode [0b01100001, 0b00000000] = .instr .hostDcData [] := by decide

/-- 95_test_vectors.md ENC: the length words of WRITE, high word first. -/
theorem test_write_length : lenOfBytes 0x00 0x01 0x00 0x00 = 65536 := by decide

/-- 95_test_vectors.md ENC: every header listed as illegal. -/
theorem test_illegal_headers :
    ([0x1001, 0x1100, 0x3100, 0x4200, 0x4A22, 0x5100, 0x5022, 0x6001, 0x0000, 0x7000, 0x8000, 0xF000, 0xFFFF].all
      fun h => headerKind h == none) = true := by decide

/-- 95_test_vectors.md ENC: the truncated streams. -/
theorem test_truncated :
    decode [0x30, 0x00, 0x00, 0x0A] = .truncated ∧ decode [0x41, 0x4E, 0x00] = .truncated ∧
      decode [0x50, 0x00, 0x00, 0x00, 0x00, 0x04, 0xCD, 0xAB] = .truncated := by decide

/-- R85: the pseudo-instructions; P4 writes SET_XY 10, 20 out. -/
theorem test_assemble :
    assembleLine 0x22 .ramPrime = [0x40, 0x22] ∧ assembleLine 0x22 (.half 0x4A22) = [0x4A, 0x22] ∧
      assembleLine 0x22 (.setXY 10 20) = [0x30, 0x00, 0x00, 0x0A, 0x00, 0x14, 0x00, 0x00, 0x00, 0x00] ∧
      assembleLine 0x22 (.pixels [0xCD, 0xAB]) = [0x61, 0x00, 0x50, 0x00, 0x00, 0x00, 0x00, 0x02, 0xCD, 0xAB] := by decide

/-! ### Attach and views -/

/-- 95_test_vectors.md P1, P3, P4, P5: the CFG values. -/
theorem test_view_cfg :
    viewCfg (ready opt16) = 0x0080 ∧ viewCfg (ready (testCfg .byte false false false .r180)) = 0x04A1 ∧
      viewCfg (ready (testCfg .gpio false false true .r90)) = 0x0298 ∧
      viewCfg (ready (testCfg .gpio false false false .r270)) = 0x00B0 := by decide

/-- 95_test_vectors.md EX and IS: refused configurations. -/
theorem test_refusals :
    refusalReasons (testCfg .gpio true true false .r0) = [.latchedSlow] ∧
      refusalReasons (testCfg .gpio true false true .r0) = [.naiveMix] ∧
      refusalReasons (testCfg .byte false true false .r0) = [.byteFlags] ∧
      refusalReasons { opt16 with initSeq := [.fixed 0x22 none] } = [.initSeq] ∧
      refusalReasons { opt16 with initSeq := [.wave, .wave, .fixed 0x22 none] } = [.initSeq] ∧
      refusalReasons { opt16 with initSeq := [.wave, .fixed 0x22 (some 0)] } = [.initSeq] ∧
      refusalReasons { opt16 with initSeq := [] } = [.initSeq] ∧ refusalReasons opt16 = [] := by decide

/-- The host's probe runs exactly the table's instruction: WRITE_REG_A with its fields zero. -/
theorem test_probe_runs_first :
    decodeTableWord 16 0x4000 = some (.writeRegA 0) ∧
      step (State.reset.withFetchWord 16 0x4000) = .next { State.reset with status := .notReady } := ⟨by decide, rfl⟩

/-! ### One step of each command -/

/-- CV: a GPIO transport without WR. -/
theorem test_verify_without_wr :
    (run .verifyGpios (State.attach opt16 0x2FFFF)).phase = .aborted ∧
      (run .verifyGpios (State.attach opt16 0x2FFFF)).status = .configError := by decide

/-- CV: the latched pins suffice, and LATCH is needed. -/
theorem test_verify_latched :
    (run .verifyGpios (State.attach latched8 0x700FF)).phase = .ready ∧
      (run .verifyGpios (State.attach latched8 0x300FF)).phase = .aborted := by decide

/-- R22, R108, R193: what a latched word may and may not write. `WR_LATCH` first, a second pulse, no `WR_BEGIN`, a line before
`WR_BEGIN`, `WR_LATCH` not last, DC and DB8 are all refused; a LATCH write may stand anywhere between. -/
theorem test_latched_shape :
    latchedShape false [(.wr, false), (.db 0, true), (.latch, true), (.db 0, false), (.wr, true)] = true ∧
      latchedShape false [(.latch, false), (.wr, false), (.wr, true)] = true ∧
      ([[(.wr, true), (.wr, false), (.wr, true)], [(.wr, false), (.wr, false), (.wr, true)],
        [(.wr, false), (.wr, true), (.wr, false), (.wr, true)], [(.wr, true)], [], [(.db 0, true), (.wr, false), (.wr, true)],
        [(.wr, false), (.wr, true), (.db 0, true)], [(.wr, false), (.dc, true), (.wr, true)],
        [(.wr, false), (.db 8, true), (.wr, true)]].all fun ps => !latchedShape false ps) = true := by decide

/-- IS: the nine T1 words under R180, waveform 0x6040. -/
theorem test_init_words :
    captureWords (run .initDisplay (ready (testCfg .gpio false false false .r180))).trace =
      [(false, 0x0000), (true, 0x0001), (false, 0x0011), (true, 0x6040), (false, 0x004E), (true, 0x0000), (false, 0x004F),
        (true, 0x0000), (false, 0x0022)].map exactWord := by decide +kernel

/-- IS: on the byte transport under R270 the waveform is 0x6068, and the sequence ends with 0x0022. -/
theorem test_init_bytes :
    (outBytes (run .initDisplay (ready (testCfg .byte false false false .r270))).trace).map (·.2) =
      [0x00, 0x00, 0x00, 0x01, 0x00, 0x11, 0x60, 0x68, 0x00, 0x4E, 0x00, 0x00, 0x00, 0x4F, 0x00, 0x00, 0x00, 0x22] := by
  decide +kernel

/-- AW: (239, 0) under R90 is (319, 239), whatever the end is. -/
theorem test_window_r90 :
    captureWords (run (.setAddrWin 239 0 0 0) (ready (testCfg .gpio false false true .r90))).trace =
      [(false, 0x004E), (true, 0x013F), (false, 0x004F), (true, 0x00EF), (false, 0x0022)].map exactWord := by decide +kernel

/-- AW: xs = 240 faults with no event. -/
theorem test_window_out_of_panel :
    (run (.setAddrWin 240 0 0 0) (ready opt16)).faults = ⟨some (240, 0), none⟩ ∧
      (run (.setAddrWin 240 0 0 0) (ready opt16)).trace = [] := by decide

/-- L1-8: just after attach, 20 events. -/
theorem test_write_reg_a_first_word :
    (run (.writeRegA 0x22) (ready opt16)).trace =
      [.pin .dc false, .pin .wr false] ++
        [false, true, false, false, false, true, false, false, false, false, false, false, false, false, false, false].mapIdx
          (fun k b => .pin (.db (Fin.ofNat 16 k)) b) ++
        [.pin .wr true, .capture .lo (wordLevels 0x0022)] := by decide

/-- RP: the byte transport. -/
theorem test_write_reg_a_byte :
    (run (.writeRegA 0x22) (ready bytew)).trace = [.pin .dc false, .byteOut .lo 0x00, .byteOut .lo 0x22] := by decide

/-- R92's example: after 0x0022, four lines and then three. -/
theorem test_write_reg_av_lines :
    (run (.writeRegAV 0x4E 0x00EF) (sent opt16 0x0022)).trace =
      [.pin .dc false, .pin .wr false, .pin (.db 2) true, .pin (.db 3) true, .pin (.db 5) false, .pin (.db 6) true,
        .pin .wr true, .capture .lo (wordLevels 0x004E), .pin .dc true, .pin .wr false, .pin (.db 0) true, .pin (.db 5) true,
        .pin (.db 7) true, .pin .wr true, .capture .hi (wordLevels 0x00EF)] := by decide

/-- RP: equal words re-drive no line and still pulse the strobe. -/
theorem test_write_reg_av_equal_words :
    lineEvents (run (.writeRegAV 0x05 0x0005) (sent opt16 0x0005)).trace = [] ∧
      wrWrites (run (.writeRegAV 0x05 0x0005) (sent opt16 0x0005)).trace = [false, true, false, true] := by decide

/-- BW: the buffer under BE is 0xCDAB, which differs from 0xABCD in eight lines. -/
theorem test_write_big_endian :
    (lineEvents (run (.write [0xCD, 0xAB]) (sent { opt16 with bufOrder := .be } 0xABCD)).trace).map (·.1) =
      [1, 2, 5, 6, 9, 10, 13, 14] ∧
      lineEvents (run (.write [0xCD, 0xAB]) (sent opt16 0xABCD)).trace = [] := by decide

/-- BW: the byte transport is checked before the length. -/
theorem test_write_rejections :
    (run (.write [1, 2, 3]) (ready bytew)).status = .notAvailable ∧
      (run (.write [1, 2, 3]) (ready opt16)).status = .oddLength := by decide

/-- HA: HOST_DC CMD. -/
theorem test_host_dc_cmd : (run .hostDcCmd (ready opt16)).trace = [.pin .dc false] := by decide

/-- HA: an event also where DC is 1 already; NOT_READY in NEW. -/
theorem test_host_dc_data :
    (run .hostDcData (run .hostDcData (ready opt16))).trace = [.pin .dc true, .pin .dc true] ∧
      (run .hostDcData (State.attach opt16 0x7FFFF)).status = .notReady := by decide

/-- BW: the first word under TRUST_CACHE leaves lines 1, 4, 5, 10, 12, 14 at X. -/
theorem test_trust_cache_first_word :
    ((List.finRange 16).filter fun i : Fin 16 => (busWord 0xABCD (ready trusting)).db[i] == .x) = [1, 4, 5, 10, 12, 14] := by
  decide

/-- EX: the order of R169. -/
theorem test_priority :
    (nextOr State.reset (step (fed opt16 [0x70, 0x00]))).status = .illegalCommand ∧
      (nextOr State.reset (step (fed opt16 [0x30, 0x00, 0x00, 0xF0, 0, 0, 0, 0, 0, 0]))).status = .notReady ∧
      (nextOr State.reset (step { fed opt16 [0x41, 0x4E] with phase := .aborted })).faults = ⟨none, some [0x41, 0x4E]⟩ := by
  decide

/-! ### Witnesses: concrete states and operands that meet the hypotheses of each statement -/

/-- The state after one step. -/
def stepped (s : State) : State := nextOr s (step s)

theorem ready_cache (c : Cfg) : CacheMatchesLines (ready c) :=
  fun _ => ⟨fun h => Bool.noConfusion h, fun _ => ⟨rfl, fun i => ⟨by simp [ready, State.attach], fun _ => List.not_mem_nil⟩⟩⟩

theorem ready_whole (c : Cfg) : WordsAreWhole (ready c) := by
  unfold WordsAreWhole
  split
  · exact ⟨⟨[], rfl⟩, rfl⟩
  · rfl

theorem attach_pins (c : Cfg) (pins : BitVec 19) : PinsMatchTrace (State.attach c pins) := by
  intro p
  cases p <;> simp [State.pin, State.attach, tracedLevel]

theorem ready_pins (c : Cfg) : PinsMatchTrace (ready c) := fun p => attach_pins c 0x7FFFF p

/-- READY after one word under TRUST_CACHE: line 0 driven, line 1 not. -/
def trusted : State := busWord 0x0001 (ready trusting)

theorem trusted_cache : CacheMatchesLines trusted := by
  unfold CacheMatchesLines UsesCache NeverDriven
  decide +kernel

theorem trusted_pins : PinsMatchTrace trusted := by
  have key : ∀ i, trusted.pin (.db i) = tracedLevel (.db i) trusted.trace := by decide +kernel
  intro p
  cases p with
  | db i => exact key i
  | wr => rfl
  | dc => rfl
  | latch => rfl

/-- DecodeOfEncode. -/
theorem witness_encode : (Instr.write [0xCD, 0xAB]).wf = true ∧ (Instr.write []).wf = true := by decide

/-- DecodeReadsOnlyEncodings: a payload, an address at its largest, bytes left over. -/
theorem witness_decode :
    decode [0x50, 0, 0, 0, 0, 1, 0xFF] = .instr (.write [0xFF]) [] ∧ decode [0x40, 0xFF, 0x60] = .instr (.writeRegA 0xFF) [0x60] := by
  decide

/-- IllegalHeaderEndsCommand, both clauses: one header for each way to be illegal, and the legal neighbours. -/
theorem witness_illegal :
    CanStep (fed opt16 [0x70, 0x00, 0x10]) ∧ decode (fed opt16 [0x70, 0x00, 0x10]).stream = .illegal 0x7000 [0x10] ∧
      decode [0x0F, 0xFF] = .illegal 0x0FFF [] ∧ decode [0x42, 0x00] = .illegal 0x4200 [] ∧
      decode [0x51, 0x00] = .illegal 0x5100 [] ∧ decode [0x60, 0x01] = .illegal 0x6001 [] ∧
      decode [0x60, 0x00] = .instr .hostDcCmd [] ∧ decode [0x41, 0x00] = .truncated :=
  ⟨⟨rfl, rfl⟩, by decide⟩

/-- TruncatedDescriptorFaults: cut after one byte, and one byte short. -/
theorem witness_truncated :
    (Instr.writeRegAV 0x4E 0).wf = true ∧ encode (.writeRegAV 0x4E 0) = [0x41] ++ [0x4E, 0, 0] ∧
      encode (.writeRegAV 0x4E 0) = [0x41, 0x4E, 0] ++ [0] ∧ CanStep (fed opt16 [0x41]) ∧ CanStep (fed opt16 [0x41, 0x4E, 0]) ∧
      (fed opt16 [0x41]).stream = [0x41] ∧ (fed opt16 [0x41, 0x4E, 0]).stream = [0x41, 0x4E, 0] :=
  ⟨rfl, by decide, by decide, ⟨rfl, rfl⟩, ⟨rfl, rfl⟩, rfl, rfl⟩

/-- StepRunsDecodedCommand. -/
theorem witness_step :
    CanStep (fed opt16 [0x10, 0x00, 0x20]) ∧ decode (fed opt16 [0x10, 0x00, 0x20]).stream = .instr .verifyGpios [0x20] :=
  ⟨⟨rfl, rfl⟩, by decide⟩

/-- StepStopsOnlyWhenRunIsOver: a refused, a faulted and a running instance. -/
theorem witness_stops :
    (State.attach (testCfg .gpio true true false .r0) 0).refused = true ∧
      (run (.setAddrWin 240 0 0 0) (ready opt16)).refused = false ∧
      (run (.setAddrWin 240 0 0 0) (ready opt16)).faults.coord ≠ none ∧
      (stepped (fed opt16 [0x41])).faults.truncated ≠ none ∧ CanStep State.reset :=
  ⟨by decide, by decide, by decide, by decide, by decide, rfl⟩

/-- StepWaitsForHost: with no byte left, and with one. -/
theorem witness_waits :
    CanStep State.reset ∧ State.reset.stream = [] ∧ CanStep (fed opt16 [0x60]) ∧ (fed opt16 [0x60]).stream ≠ [] :=
  ⟨⟨rfl, rfl⟩, rfl, ⟨rfl, rfl⟩, by decide⟩

/-- PhaseTurnsCommandsAway. -/
theorem witness_phase :
    (State.attach { opt16 with allocOk := false } 0x7FFFF).phase = .aborted ∧ (State.attach opt16 0x7FFFF).phase = .new ∧
      Instr.initDisplay ≠ .verifyGpios := by decide

/-- FailedCommandHasNoEffect: an odd WRITE, and a failed validation, which moves PHASE. -/
theorem witness_failed :
    let s := { ready opt16 with stream := [0x50, 0, 0, 0, 0, 1, 7] }
    let u := { State.attach opt16 0x2FFFF with stream := [0x10, 0x00] }
    CanStep s ∧ s.stream ≠ [] ∧ step s = .next (stepped s) ∧ CanStep (stepped s) ∧ (stepped s).status ≠ .ok ∧
      CanStep u ∧ u.stream ≠ [] ∧ step u = .next (stepped u) ∧ CanStep (stepped u) ∧ (stepped u).status ≠ .ok ∧
      (stepped u).phase ≠ u.phase :=
  ⟨⟨rfl, rfl⟩, by decide, rfl, ⟨rfl, rfl⟩, by decide, ⟨rfl, rfl⟩, by decide, rfl, ⟨rfl, rfl⟩, by decide, by decide⟩

/-- StepMovesPhaseOnlyByValidation: to READY and to ABORTED. -/
theorem witness_moves :
    let s := fed opt16 [0x10, 0x00]
    let u := { State.attach opt16 0x2FFFF with stream := [0x10, 0x00] }
    step s = .next (stepped s) ∧ (stepped s).phase ≠ s.phase ∧ step u = .next (stepped u) ∧ (stepped u).phase ≠ u.phase :=
  ⟨rfl, by decide, rfl, by decide⟩

/-- AttachGivesResetValues: the allocation failed, and succeeded. -/
theorem witness_attach : ({ opt16 with allocOk := false } : Cfg).allocOk = false ∧ opt16.allocOk = true := by decide

/-- AttachRefusesListedConfigurations: each flag pair by itself, and a refused instance. -/
theorem witness_refused :
    .latchedSlow ∈ refusalReasons (testCfg .gpio true true false .r0) ∧
      .naiveMix ∈ refusalReasons (testCfg .gpio true false true .r0) ∧
      .naiveMix ∈ refusalReasons (testCfg .gpio false true true .r0) ∧
      .byteFlags ∈ refusalReasons (testCfg .byte true false false .r0) ∧
      .initSeq ∈ refusalReasons { opt16 with initSeq := [] } ∧ refusalReasons latched8 = [] ∧
      (State.attach (testCfg .gpio true true false .r0) 0).refused = true := by decide

/-- ViewsHoldTheirFields: every rotation, variant, phase and status is held by some state. -/
theorem witness_views :
    ([Rot.r0, .r90, .r180, .r270].map fun r => (ready (testCfg .gpio false false false r)).cfg.rot) = [.r0, .r90, .r180, .r270] ∧
      ([opt16, slow16, naive16, latched8, bytew].map fun c => cfgVariant (ready c).cfg) =
        [.opt16, .slow16, .naive16, .latched8, .bytew] ∧
      (∀ p : Phase, ((ready opt16).setPhase p).phase = p) ∧ ∀ st : Status, ((ready opt16).setStatus st).status = st :=
  ⟨rfl, by decide, fun _ => rfl, fun _ => rfl⟩

/-- VerifyGpiosValidatesRequiredPins: READY, ABORTED, and NEW with good and bad pins of every width. -/
theorem witness_verify :
    (ready opt16).phase = .ready ∧ (State.attach { opt16 with allocOk := false } 0).phase = .aborted ∧
      (State.attach opt16 0x3FFFF).phase = .new ∧ (∀ n < 16, (0x3FFFF : BitVec 19).getLsbD n = true) ∧
      (0x3FFFF : BitVec 19).getLsbD 16 = true ∧ (0x3FFFF : BitVec 19).getLsbD 17 = true ∧
      (0x37FFF : BitVec 19).getLsbD 15 = false ∧ (∀ n < 8, (0x700FF : BitVec 19).getLsbD n = true) ∧
      (0x700FF : BitVec 19).getLsbD 18 = true ∧ (0x300FF : BitVec 19).getLsbD 18 = false ∧
      bytew.transport = .byte ∧ (0x20000 : BitVec 19).getLsbD 17 = true ∧ (0x1FFFF : BitVec 19).getLsbD 17 = false := by decide

/-- DifferentialWordDrivesChangedLines, in both differential variants; the word may equal the cached one. -/
theorem witness_differential :
    UsesCache (sent opt16 0xABCD).cfg ∧ (sent opt16 0xABCD).prevValid = true ∧ (sent opt16 0xABCD).prev = 0xABCD ∧
      UsesCache (sent slow16 0xABCD).cfg ∧ (sent slow16 0xABCD).prevValid = true :=
  ⟨.inl (by decide), rfl, rfl, .inr (by decide), rfl⟩

/-- CaptureShowsTheWord: the naive variant, a forced first word, and TRUST_CACHE with a line driven and one never driven. -/
theorem witness_capture :
    cfgVariant (ready naive16).cfg = .naive16 ∧ CacheMatchesLines (ready naive16) ∧ PinsMatchTrace (ready naive16) ∧
      cfgVariant (ready opt16).cfg = .opt16 ∧ (ready opt16).cfg.firstWord = .forceFull ∧ CacheMatchesLines (ready opt16) ∧
      PinsMatchTrace (ready opt16) ∧ cfgVariant trusted.cfg = .opt16 ∧ trusted.cfg.firstWord = .trustCache ∧
      CacheMatchesLines trusted ∧ PinsMatchTrace trusted ∧ NeverDriven (.db 1) (busWord 0x8000 trusted).trace ∧
      ¬ NeverDriven (.db 0) (busWord 0x8000 trusted).trace ∧ ¬ NeverDriven (.db 15) (busWord 0x8000 trusted).trace := by
  refine ⟨by decide, ready_cache _, ready_pins _, by decide, rfl, ready_cache _, ready_pins _, by decide, rfl, trusted_cache,
    trusted_pins, ?_, ?_, ?_⟩ <;> unfold NeverDriven <;> decide +kernel

/-- LatchedWordFollowsProtocolShape. -/
theorem witness_latched : cfgVariant (ready latched8).cfg = .latched8 ∧ (ready latched8).refused = false := by decide

/-- SlowVariantEqualsOptimized. -/
theorem witness_slow :
    (ready slow16).cfg.transport = .gpio ∧ (ready slow16).cfg.naive = false ∧ (ready slow16).cfg.latched = false := by decide

/-- WriteSendsBufferWords. -/
theorem witness_write :
    (ready opt16).phase = .ready ∧ (ready opt16).cfg.transport = .gpio ∧ [(0xCD : Byte), 0xAB].length % 2 = 0 := by decide

/-- WriteRejectionsAndZeroLength, each clause. -/
theorem witness_write_rejections :
    (ready bytew).phase = .ready ∧ (ready bytew).cfg.transport = .byte ∧ (ready opt16).phase = .ready ∧
      (ready opt16).cfg.transport = .gpio ∧ [(7 : Byte)].length % 2 = 1 ∧ ([] : List Byte).length = 0 := by decide

/-- WriteRegASendsAddress, WriteRegAVSendsAddressAndValue, InitDisplaySendsEveryEntry, HostDcDrivesOnlyDc, on every transport;
RegWriteOnByteTransport. -/
theorem witness_ready :
    (ready opt16).phase = .ready ∧ (ready latched8).phase = .ready ∧ (ready bytew).phase = .ready ∧
      (ready bytew).cfg.transport = .byte := by decide

/-- RegisterWritesShowOnBus, for each reason a capture is exact. -/
theorem witness_exact :
    (CacheMatchesLines (ready opt16) ∧ WordsAreWhole (ready opt16) ∧ CapturesExactly (ready opt16).cfg) ∧
      (CacheMatchesLines (ready bytew) ∧ WordsAreWhole (ready bytew) ∧ CapturesExactly (ready bytew).cfg) ∧
      CapturesExactly { naive16 with firstWord := .trustCache } ∧ ¬ CapturesExactly trusting :=
  ⟨⟨ready_cache _, ready_whole _, .inl rfl⟩, ⟨ready_cache _, ready_whole _, .inl rfl⟩, .inr (by decide),
    by unfold CapturesExactly; decide⟩

/-- AxisMapFollowsTable, AxisMapIsInjective: the corners of the panel. -/
theorem witness_axis :
    (0 : Int) ≤ 239 ∧ (239 : Int) < 240 ∧ (0 : Int) ≤ 319 ∧ (319 : Int) < 320 ∧
      axisMap (testCfg .gpio false false false .r180) 239 319 = (0, 0) ∧
      axisMap (testCfg .gpio false false false .r90) 0 0 = (319, 0) := by decide

/-- SetAddrWinWritesCountersAndPrime and SetAddrWinOutsidePanelFaults: the last point on the panel, the first ones off it. -/
theorem witness_panel :
    (ready opt16).phase = .ready ∧ InPanel 239 319 ∧ InPanel 0 0 ∧ ¬ InPanel 240 0 ∧ ¬ InPanel 0 320 ∧ ¬ InPanel 0xFFFF 0xFFFF := by
  unfold InPanel
  decide

/-- SetAddrWinShowsFiveWords. -/
theorem witness_window_words :
    (ready opt16).phase = .ready ∧ InPanel 239 319 ∧ CacheMatchesLines (ready opt16) ∧ WordsAreWhole (ready opt16) ∧
      CapturesExactly (ready opt16).cfg :=
  ⟨rfl, ⟨by decide, by decide⟩, ready_cache _, ready_whole _, .inl rfl⟩

/-- SetAddrWinObserved: there is an observation after the command. -/
theorem witness_window_observed :
    let s := ready naive16
    let t := run (.setAddrWin 10 20 0 0) s
    s.phase = .ready ∧ InPanel 10 20 ∧ CacheMatchesLines s ∧ WordsAreWhole s ∧ CapturesExactly s.cfg ∧
      s.cfg.regX ≠ s.cfg.regY ∧ s.cfg.regX ≠ s.cfg.regRam ∧ s.cfg.regY ≠ s.cfg.regRam ∧
      exec (.setAddrWin 10 20 0 0) s = .next t ∧ ∃ o, Observes t.cfg t.trace o := by
  refine ⟨rfl, ⟨by decide, by decide⟩, ready_cache _, ready_whole _, .inl rfl, by decide, by decide, by decide, exec_run _ _, ?_⟩
  let ws : List (Bool × Word) := [(false, 0x004E), (true, 0x000A), (false, 0x004F), (true, 0x0014), (false, 0x0022)]
  have h : words naive16.transport (run (.setAddrWin 10 20 0 0) (ready naive16)).trace = ws.map exactWord := by decide +kernel
  exact ⟨_, ws, h ▸ (forall2_exactWords ws ws).2 rfl, rfl⟩

/-- InitDisplayLeavesRamSelected, in a differential variant and in another, with captures exact. -/
theorem witness_init :
    (AttachDecided (ready opt16) ∧ (ready opt16).refused = false ∧ UsesCache (ready opt16).cfg) ∧
      (AttachDecided (ready bytew) ∧ (ready bytew).refused = false ∧ ¬ UsesCache (ready bytew).cfg) ∧
      CacheMatchesLines (ready bytew) ∧ WordsAreWhole (ready bytew) ∧ CapturesExactly (ready bytew).cfg := by
  refine ⟨?_, ?_, ready_cache _, ready_whole _, .inl rfl⟩ <;> unfold AttachDecided UsesCache <;> decide

/-- InitDisplayRerunKeepsRegisters: two runs, and an observation of each. -/
theorem witness_rerun :
    let s := ready bytew
    let t := run .initDisplay s
    s.phase = .ready ∧ CacheMatchesLines s ∧ WordsAreWhole s ∧ CapturesExactly s.cfg ∧ exec .initDisplay s = .next t ∧
      exec .initDisplay t = .next (run .initDisplay t) ∧ ∃ o, Observes t.cfg t.trace o ∧ o.idx = some 0x22 := by
  refine ⟨rfl, ready_cache _, ready_whole _, .inl rfl, exec_run _ _, exec_run _ _, ?_⟩
  let ws : List (Bool × Word) := [(false, 0x0000), (true, 0x0001), (false, 0x0011), (true, 0x6070), (false, 0x004E),
    (true, 0x0000), (false, 0x004F), (true, 0x0000), (false, 0x0022)]
  have h : words bytew.transport (run .initDisplay (ready bytew)).trace = ws.map exactWord := by decide +kernel
  exact ⟨_, ⟨ws, h ▸ (forall2_exactWords ws ws).2 rfl, rfl⟩, by decide⟩

/-- READY with the RAM register selected and DC at data. -/
def primed : State := run .hostDcData (run (.writeRegA 0x22) (ready naive16))

/-- PixelBurstGoesWhereDcPoints: DC at data after the prime, and DC at command. -/
theorem witness_burst :
    primed.phase = .ready ∧ primed.cfg.transport = .gpio ∧ CacheMatchesLines primed ∧ CapturesExactly primed.cfg ∧
      exec (.write [1, 2]) primed = .next (run (.write [1, 2]) primed) ∧ primed.dc = levelOf (dcData primed.cfg) ∧
      (∀ o, Observes primed.cfg primed.trace o → o.idx = some primed.cfg.regRam) ∧ (∃ o, Observes primed.cfg primed.trace o) ∧
      (run .hostDcCmd (ready naive16)).phase = .ready ∧ CacheMatchesLines (run .hostDcCmd (ready naive16)) ∧
      (run .hostDcCmd (ready naive16)).dc = levelOf (run .hostDcCmd (ready naive16)).cfg.dcCmd := by
  let ws : List (Bool × Word) := [(false, 0x0022)]
  have h : words primed.cfg.transport primed.trace = ws.map exactWord := by decide +kernel
  have other : ∀ s : State, s.cfg = naive16 → CacheMatchesLines s := by
    intro s e d
    exact absurd (e ▸ d) (by unfold UsesCache; decide)
  refine ⟨by decide, by decide, other _ (by decide +kernel), .inl (by decide), exec_run _ _, by decide, ?_,
    ⟨_, ws, h ▸ (forall2_exactWords ws ws).2 rfl, rfl⟩, by decide, other _ (by decide), by decide⟩
  rintro o ⟨xs, hx, rfl⟩
  rw [h, forall2_exactWords] at hx
  subst hx
  decide

/-- CommandsLeaveTheRestAlone: a next state, and each clause's own condition. -/
theorem witness_frames :
    exec .initDisplay (sent opt16 0) = .next (run .initDisplay (sent opt16 0)) ∧ (sent opt16 0).prevValid = true ∧
      Instr.initDisplay ≠ .verifyGpios ∧ (∀ xs ys xe ye, Instr.initDisplay ≠ .setAddrWin xs ys xe ye) ∧
      (run (.setAddrWin 240 0 0 0) (ready opt16)).faults.coord ≠ none ∧ cfgVariant opt16 ≠ .latched8 ∧
      cfgVariant bytew = .bytew ∧ cfgVariant latched8 = .latched8 ∧ ¬ UsesCache naive16 := by
  refine ⟨exec_run _ _, rfl, by decide, by simp, by decide, by decide, by decide, by decide, ?_⟩
  unfold UsesCache
  decide

/-- QuietCommandFrames, each clause. -/
theorem witness_quiet :
    exec .verifyGpios (fed opt16 []) = .next (run .verifyGpios (fed opt16 [])) ∧
      exec .hostDcCmd (ready opt16) = .next (run .hostDcCmd (ready opt16)) ∧
      exec .hostDcData (ready opt16) = .next (run .hostDcData (ready opt16)) ∧
      exec (.write [1, 2]) (ready opt16) = .next (run (.write [1, 2]) (ready opt16)) :=
  ⟨exec_run _ _, exec_run _ _, exec_run _ _, exec_run _ _⟩

/-- CommandsSendTheirWordCount, on both transports. -/
theorem witness_count :
    (ready opt16).phase = .ready ∧ CanStep (ready opt16) ∧ CanStep (run (.writeRegAV 1 2) (ready opt16)) ∧
      (run (.writeRegAV 1 2) (ready opt16)).status = .ok ∧ (ready opt16).cfg.transport = .gpio ∧
      CanStep (run (.writeRegAV 1 2) (ready bytew)) ∧ (run (.writeRegAV 1 2) (ready bytew)).status = .ok ∧
      (ready bytew).cfg.transport = .byte :=
  ⟨rfl, ⟨rfl, rfl⟩, ⟨rfl, rfl⟩, rfl, rfl, ⟨rfl, rfl⟩, rfl, rfl⟩

/-- EveryWordPulsesWr: both transports, the latched and the parallel lines, and what one word leaves there. -/
theorem witness_pulse :
    (ready latched8).cfg.transport = .gpio ∧ wrWrites (busWord 0xABCD (ready latched8)).trace = [false, true] ∧
      (ready opt16).cfg.transport = .gpio ∧ wrWrites (busWord 0xABCD (ready opt16)).trace = [false, true] ∧
      (ready bytew).cfg.transport = .byte ∧ wrWrites (busWord 0xABCD (ready bytew)).trace = [] := by
  refine ⟨rfl, ?_, rfl, by decide +kernel, rfl, by decide +kernel⟩
  exact wrWrites_latched (s := ready latched8) (w := 0xABCD) rfl

/-- The state the invariants' witnesses step from: READY, with a register write to come. -/
def working : State := { ready opt16 with stream := [0x41, 0x4E, 0x00, 0x05] }

/-- StepKeepsCacheInvariant, StepKeepsPinsMatchTrace, StepKeepsOnlyAssignedPins, StepKeepsUnusedStateUntouched,
StepKeepsWordsWhole, StepKeepsStrobePerWord: the invariant holds, and a step sends two words. -/
theorem witness_invariants :
    CacheMatchesLines working ∧ PinsMatchTrace working ∧ (AttachDecided working ∧ OnlyAssignedPins working) ∧
      UnusedStateUntouched working ∧ WordsAreWhole working ∧ StrobePerWord working ∧
      step working = .next (stepped working) ∧ (captureWords (stepped working).trace).length = 2 := by
  refine ⟨ready_cache opt16, ready_pins opt16, ⟨?_, ?_⟩, ?_, ready_whole opt16, rfl, rfl, by decide +kernel⟩
  · unfold AttachDecided; decide
  · exact fun _ _ h => absurd h List.not_mem_nil
  · unfold UnusedStateUntouched UsesCache; decide

/-- StepKeepsSilenceUntilReady: an aborted and a new instance with commands to come. -/
theorem witness_silent :
    let s := { fed opt16 [0x20, 0x00] with phase := .aborted }
    s.phase ≠ .ready ∧ SilentUntilReady s ∧ step s = .next (stepped s) ∧ (fed opt16 [0x20, 0x00]).phase ≠ .ready ∧
      step (fed opt16 [0x20, 0x00]) = .next (stepped (fed opt16 [0x20, 0x00])) := by
  refine ⟨by decide, fun _ => ⟨rfl, fun p => ?_, rfl, rfl⟩, rfl, by decide, rfl⟩
  exact attach_pins opt16 0x7FFFF p

/-- LegalStreamRunsToDone: two descriptors, a window at the panel's corner. -/
theorem witness_run :
    let is := [Instr.verifyGpios, .setAddrWin 239 319 0 0]
    CanStep (fed opt16 (is.flatMap encode)) ∧ (∀ i ∈ is, i.wf = true) ∧
      (∀ xs ys xe ye, Instr.setAddrWin xs ys xe ye ∈ is → InPanel xs ys) := by
  refine ⟨⟨rfl, rfl⟩, by decide, ?_⟩
  intro xs ys xe ye h
  simp only [List.mem_cons, Instr.setAddrWin.injEq, reduceCtorEq, false_or, List.not_mem_nil, or_false] at h
  obtain ⟨rfl, rfl, _, _⟩ := h
  exact ⟨by decide, by decide⟩

end Sys2Proof.Tests
end

section
/-! Pin levels match the trace (00_scope.md R11, R12, 10_state.md R40): every update that builds a step keeps it. -/

namespace Sys2Proof.Machine

open Sys2Proof.Safety

variable {s : State}

/-! ### What keeps the pins matched to the trace -/

/-- The fact reads only the pins and the trace. -/
theorem pinsMatchTrace_of_same {t : State} (hp : ∀ q, t.pin q = s.pin q) (ht : t.trace = s.trace)
    (h : PinsMatchTrace s) : PinsMatchTrace t := by
  intro q
  rw [hp, ht, h q]

/-- A pin write sets the level and records it (R11). -/
theorem pinWrite_pinsMatchTrace (p : PinRole) (l : Bool) (h : PinsMatchTrace s) : PinsMatchTrace (pinWrite p l s) := by
  intro q
  rw [pinWrite_pin, pinWrite_trace, tracedLevel_append, h q]
  exact if_congr eq_comm rfl rfl

theorem pinWrites_pinsMatchTrace (ps : List (PinRole × Bool)) (h : PinsMatchTrace s) :
    PinsMatchTrace (pinWrites ps s) := by
  induction ps generalizing s with
  | nil => exact h
  | cons p ps ih => exact ih (pinWrite_pinsMatchTrace p.1 p.2 h)

/-- An event that is no pin write leaves every level as it was. -/
theorem emit_pinsMatchTrace {e : Event} (he : ∀ p l, e ≠ .pin p l) (h : PinsMatchTrace s) : PinsMatchTrace (s.emit e) := by
  intro q
  rw [State.emit_pin, State.emit_trace, tracedLevel_append, h q]
  cases e with
  | pin p l => exact absurd rfl (he p l)
  | capture _ _ => rfl
  | byteOut _ _ => rfl

theorem capture_pinsMatchTrace (h : PinsMatchTrace s) : PinsMatchTrace (capture s) := emit_pinsMatchTrace nofun h

theorem byteOut_pinsMatchTrace (b : Byte) (h : PinsMatchTrace s) : PinsMatchTrace (byteOut b s) :=
  emit_pinsMatchTrace nofun h

/-! ### Word steps -/

theorem strobeWord_pinsMatchTrace (is : List (Fin 16)) (w : Word) (h : PinsMatchTrace s) :
    PinsMatchTrace (strobeWord is w s) :=
  capture_pinsMatchTrace (pinWrite_pinsMatchTrace _ _ (pinWrites_pinsMatchTrace _ (pinWrite_pinsMatchTrace _ _ h)))

theorem wordOpt16_pinsMatchTrace (w : Word) (h : PinsMatchTrace s) : PinsMatchTrace (wordOpt16 w s) :=
  pinsMatchTrace_of_same (State.setPrev_pin _ w) (State.setPrev_trace _ w) (strobeWord_pinsMatchTrace _ w h)

/-- Every variant's word step is built from pin writes, a capture or bytes, and the cache. -/
theorem busWord_pinsMatchTrace (w : Word) (h : PinsMatchTrace s) : PinsMatchTrace (busWord w s) := by
  unfold busWord
  cases cfgVariant s.cfg with
  | opt16 => exact wordOpt16_pinsMatchTrace w h
  | slow16 => exact wordOpt16_pinsMatchTrace w h
  | naive16 => exact strobeWord_pinsMatchTrace _ w h
  | latched8 => exact emit_pinsMatchTrace nofun (pinWrites_pinsMatchTrace _ h)
  | bytew => exact byteOut_pinsMatchTrace _ (byteOut_pinsMatchTrace _ h)

end Sys2Proof.Machine
end

section

open Sys2Proof.Machine Sys2Proof.Safety

/-- Settles O43: DC writes and bus words keep the fact, and the plain updates touch neither a pin nor the trace. -/
theorem stepKeepsPinsMatchTrace : Obligations.StepKeepsPinsMatchTrace := by
  intro s t hs h
  exact step_keeps (P := PinsMatchTrace)
    (dc := fun b _ => pinWrite_pinsMatchTrace .dc b)
    (word := fun w _ => busWord_pinsMatchTrace w)
    (status := fun st u => pinsMatchTrace_of_same (u.setStatus_pin st) (u.setStatus_trace st))
    (stream := fun bs u => pinsMatchTrace_of_same (u.setStream_pin bs) (u.setStream_trace bs))
    (faults := fun f u => pinsMatchTrace_of_same (u.setFaults_pin f) (u.setFaults_trace f))
    (ready := fun u _ _ => pinsMatchTrace_of_same (u.setPhase_pin .ready) (u.setPhase_trace .ready))
    (aborted := fun u => pinsMatchTrace_of_same (u.setPhase_pin .aborted) (u.setPhase_trace .aborted))
    hs h

end

section
/-! What one bus word leaves, in closed form and variant by variant (41_bus_writer.md R100 to R109). -/

namespace Sys2Proof.Machine

open Sys2Proof.Safety

variable (w : Word) (s : State)

/-! ### The closed form -/

/-- A latched word leaves every pin outside the protocol's roles at its level (R108). -/
theorem latchedEvents_levelAfter_of_not_role {q : PinRole} (hq : latchedRole q = false) (l : Level) :
    levelAfter q l (latchedEvents s w) = l := by
  refine levelAfter_of_absent (fun p hp h => ?_) l
  have hr := latchedEvents_roles s w p hp
  rw [h, hq] at hr
  cases hr

/-- A latched word leaves WR at `WR_LATCH` (10_state.md R22). -/
theorem latchedEvents_levelAfter_wr (l : Level) : levelAfter .wr l (latchedEvents s w) = levelOf (wrLatch s.cfg) := by
  obtain ⟨-, hwr, -, -⟩ := latchedEvents_shape s w
  simp only [levelAfter, hwr]
  rfl

theorem wordLatched8_eq_afterWord (h : cfgVariant s.cfg = .latched8) : wordLatched8 w s = afterWord w s := by
  have hdc : (pinWrites (latchedEvents s w) s).dc = s.dc := by
    rw [← State.pin_dc, pinWrites_pin, latchedEvents_levelAfter_of_not_role w s rfl]
    rfl
  simp only [afterWord, h]
  refine State.ext_pins ?_ ?_ ?_ ?_ ?_ ?_ ?_ ?_ ?_ ?_ ?_
  · intro q
    rw [wordLatched8, State.emit_pin, pinWrites_pin]
    cases q with
    | db i => simp [State.pin]
    | wr => exact latchedEvents_levelAfter_wr w s _
    | dc => exact latchedEvents_levelAfter_of_not_role w s rfl _
    | latch => rfl
  all_goals simp [wordLatched8, hdc, wordLevels]

/-- The word step of every variant leaves its closed form. -/
theorem busWord_eq_afterWord : busWord w s = afterWord w s := by
  have opt (h : UsesCache s.cfg) :
      wordOpt16 w s = { afterStrobe (drivenLines s w) w s with prev := w, prevValid := true } := by
    rw [wordOpt16, strobeWord_eq, optLines_eq h]
    rfl
  unfold busWord
  cases h : cfgVariant s.cfg with
  | opt16 => simpa only [afterWord, h] using opt (.inl h)
  | slow16 => simpa only [wordSlow16, afterWord, h] using opt (.inr h)
  | naive16 => simp only [wordNaive16, strobeWord_eq, afterWord, drivenLines, h, allLines]
  | latched8 => exact wordLatched8_eq_afterWord w s h
  | bytew => simp only [afterWord, h, wordBytew, byteOut, State.emit, highByte, lowByte, List.append_assoc,
      List.cons_append, List.nil_append]

/-- Everything a word can add to the trace. -/
theorem busWord_trace_cases :
    ((cfgVariant s.cfg = .opt16 ∨ cfgVariant s.cfg = .slow16 ∨ cfgVariant s.cfg = .naive16) ∧
      (busWord w s).trace = s.trace ++ strobeEvents s.cfg (drivenLines s w) w s.dc s.db) ∨
    (cfgVariant s.cfg = .latched8 ∧
      (busWord w s).trace = s.trace ++ (latchedEvents s w).map (fun p => .pin p.1 p.2) ++ [.capture s.dc (wordLevels w)]) ∨
    (cfgVariant s.cfg = .bytew ∧ (busWord w s).trace = s.trace ++ [.byteOut s.dc (highByte w), .byteOut s.dc (lowByte w)]) := by
  rw [busWord_eq_afterWord]
  cases h : cfgVariant s.cfg <;> simp [afterWord, afterStrobe, h, wordLevels, highByte, lowByte]

/-- A differential word step: the lines of R103 are re-driven and the word is cached (R101, R105). -/
theorem busWord_of_usesCache (h : UsesCache s.cfg) :
    busWord w s = { afterStrobe (drivenLines s w) w s with prev := w, prevValid := true } := by
  rw [busWord_eq_afterWord]
  rcases h with h | h <;> simp only [afterWord, h]

/-- The Bus Writer leaves WR at `WR_LATCH` on every GPIO variant (10_state.md R22). -/
theorem busWord_wr_gpio (h : s.cfg.transport = .gpio) : (busWord w s).wr = levelOf (wrLatch s.cfg) := by
  rw [busWord_eq_afterWord]
  cases hv : cfgVariant s.cfg with
  | bytew => exact absurd hv (cfgVariant_gpio h)
  | _ => simp only [afterWord, hv, afterStrobe]

/-- The Bus Writer leaves WR alone on the byte transport (10_state.md R22). -/
theorem busWord_wr_byte (h : s.cfg.transport = .byte) : (busWord w s).wr = s.wr := by
  simp only [busWord_eq_afterWord, afterWord, cfgVariant_byte h]

end Sys2Proof.Machine
end

section
/-! The cache invariant of the differential variants (10_state.md R32): DC writes and bus words keep it. -/

namespace Sys2Proof.Machine

open Sys2Proof.Safety

variable {s : State}

/-- Line `i` holds bit `b` as far as the cache may rely on it (R32): it is at that level, or, under `TRUST_CACHE`, it is still
undriven where `b` is 0, as the reset value of `PREV` has it. `CacheMatchesLines` asks this of every line once `PREV` is valid. -/
def LineHolds (s : State) (i : Fin 16) (b : Bool) : Prop :=
  s.db[i] = levelOf b ∨ (s.db[i] = .x ∧ s.cfg.firstWord = .trustCache ∧ b = false ∧ NeverDriven (.db i) s.trace)

theorem neverDriven_append {p : PinRole} {es fs : List Event} :
    NeverDriven p (es ++ fs) ↔ NeverDriven p es ∧ NeverDriven p fs := by
  simp only [NeverDriven, List.mem_append, not_or, forall_and]

/-- The pin events of a 16-line word step: both WR levels, and the re-driven lines. -/
theorem pin_mem_strobeEvents {c : Cfg} {is : List (Fin 16)} {w : Word} {dc : Level} {db : Vector Level 16} {p : PinRole}
    {b : Bool} : Event.pin p b ∈ strobeEvents c is w dc db ↔
      (p = .wr ∧ (b = c.wrBegin ∨ b = wrLatch c)) ∨ ∃ i ∈ is, p = .db i ∧ b = w.getLsbD i := by
  simp only [strobeEvents, List.mem_append, List.mem_cons, List.mem_map, Event.pin.injEq, reduceCtorEq, List.not_mem_nil,
    or_false]
  grind

/-- A word step drives no line it does not re-drive. -/
theorem neverDriven_strobeEvents {c : Cfg} {is : List (Fin 16)} {w : Word} {dc : Level} {db : Vector Level 16} {i : Fin 16}
    (h : i ∉ is) : NeverDriven (.db i) (strobeEvents c is w dc db) := by
  simp [NeverDriven, pin_mem_strobeEvents, h]

/-- A line that a differential word step does not re-drive already holds the word's bit. -/
theorem lineHolds_of_not_driven {w : Word} {i : Fin 16} (hc : UsesCache s.cfg) (h : CacheMatchesLines s)
    (hi : i ∉ drivenLines s w) : LineHolds s i (w.getLsbD i) := by
  obtain ⟨hvalid, hfresh⟩ := h hc
  rw [drivenLines_usesCache hc] at hi
  split at hi
  · exact absurd (List.mem_finRange i) hi
  next hforce =>
  have hbit : w.getLsbD i = s.prev.getLsbD i := by simpa using hi
  rw [hbit]
  cases hv : s.prevValid with
  | true => exact hvalid hv i
  | false =>
    obtain ⟨hprev, hlines⟩ := hfresh hv
    obtain ⟨hx, hnever⟩ := hlines i
    have htrust : s.cfg.firstWord = .trustCache := by
      cases hf : s.cfg.firstWord with
      | forceFull => exact absurd ⟨hv, hf⟩ hforce
      | trustCache => rfl
    exact .inr ⟨hx, htrust, by simp [hprev], hnever⟩

/-- After a differential word step every line holds the word's bit. -/
theorem busWord_lineHolds (w : Word) (i : Fin 16) (hc : UsesCache s.cfg) (h : CacheMatchesLines s) :
    LineHolds (busWord w s) i (w.getLsbD i) := by
  rw [busWord_of_usesCache w s hc]
  by_cases hi : i ∈ drivenLines s w
  · exact .inl (by simp only [afterStrobe, drivenLevels_get, if_pos hi])
  · have hdb : (drivenLevels (drivenLines s w) w s.db)[i] = s.db[i] := by rw [drivenLevels_get, if_neg hi]
    rcases lineHolds_of_not_driven hc h hi with hl | ⟨hx, htrust, hbit, hnever⟩
    · exact .inl (hdb.trans hl)
    · exact .inr ⟨hdb.trans hx, htrust, hbit, neverDriven_append.2 ⟨hnever, neverDriven_strobeEvents hi⟩⟩

theorem busWord_cacheMatchesLines (w : Word) (h : CacheMatchesLines s) : CacheMatchesLines (busWord w s) := by
  intro hc
  rw [busWord_cfg] at hc
  obtain ⟨hprev, hvalid⟩ : (busWord w s).prev = w ∧ (busWord w s).prevValid = true := by
    rw [busWord_of_usesCache w s hc]
    exact ⟨rfl, rfl⟩
  refine ⟨fun _ i => ?_, fun hv => ?_⟩
  · rw [hprev]
    exact busWord_lineHolds w i hc h
  · simp [hvalid] at hv

/-- A DC write touches no data line. -/
theorem pinWrite_dc_neverDriven_iff (b : Bool) (i : Fin 16) :
    NeverDriven (.db i) (pinWrite .dc b s).trace ↔ NeverDriven (.db i) s.trace := by
  simp [NeverDriven]

theorem pinWrite_dc_cacheMatchesLines (b : Bool) (h : CacheMatchesLines s) : CacheMatchesLines (pinWrite .dc b s) := by
  have hdb : (pinWrite .dc b s).db = s.db := rfl
  simpa only [CacheMatchesLines, hdb, pinWrite_cfg, pinWrite_prev, pinWrite_prevValid, pinWrite_dc_neverDriven_iff] using h

end Sys2Proof.Machine
end

section

open Sys2Proof.Machine Sys2Proof.Safety

/-- Settles O42: a re-driven line takes the word's bit, and a line the differential step skips already holds it. -/
theorem stepKeepsCacheInvariant : Obligations.StepKeepsCacheInvariant := by
  intro s t hs h
  exact step_keeps (P := CacheMatchesLines)
    (dc := fun b _ => pinWrite_dc_cacheMatchesLines b)
    (word := fun w _ => busWord_cacheMatchesLines w)
    (status := fun _ _ hu => hu)
    (stream := fun _ _ hu => hu)
    (faults := fun _ _ hu => hu)
    (ready := fun _ _ _ hu => hu)
    (aborted := fun _ hu => hu)
    hs h

end

section
/-! What a word adds to the WR writes and to the words of the trace (10_state.md R22, 70_reset_and_hazards.md R194). -/

namespace Sys2Proof.Machine

open Sys2Proof.Safety

variable {s : State}

/-! ### The WR writes of a word -/

theorem wrWrites_busWord_gpio (w : Word) (h : s.cfg.transport = .gpio) :
    wrWrites (busWord w s).trace = wrWrites s.trace ++ [s.cfg.wrBegin, wrLatch s.cfg] := by
  rcases busWord_trace_cases w s with ⟨-, ht⟩ | ⟨hv, -⟩ | ⟨hv, -⟩
  · rw [ht, wrWrites_append, wrWrites_strobe]
  · exact wrWrites_latched hv
  · exact absurd hv (cfgVariant_gpio h)

theorem wrWrites_busWord_byte (w : Word) (h : s.cfg.transport = .byte) :
    wrWrites (busWord w s).trace = wrWrites s.trace := by
  have ht : (busWord w s).trace = s.trace ++ [.byteOut s.dc (highByte w), .byteOut s.dc (lowByte w)] := by
    simpa [cfgVariant_byte h] using busWord_trace_cases w s
  rw [ht, wrWrites_append]
  exact List.append_nil _

theorem wrWrites_pinWrite_dc (b : Bool) : wrWrites (pinWrite .dc b s).trace = wrWrites s.trace := by
  simp [wrWrites]

/-! ### One capture for each word -/

theorem captureWords_busWord_gpio (w : Word) (h : s.cfg.transport = .gpio) :
    (captureWords (busWord w s).trace).length = (captureWords s.trace).length + 1 := by
  rcases busWord_trace_cases w s with ⟨-, ht⟩ | ⟨-, ht⟩ | ⟨hv, -⟩
  · rw [ht, captureWords_append, captureWords_strobe, List.length_append, List.length_singleton]
  · simp only [ht, captureWords_append, captureWords_pins, List.append_nil]
    simp [captureWords]
  · exact absurd hv (cfgVariant_gpio h)

theorem captureWords_pinWrite_dc (b : Bool) : captureWords (pinWrite .dc b s).trace = captureWords s.trace := by
  simp [captureWords_append, captureWords]

/-! ### The pulse invariant -/

theorem busWord_strobePerWord (w : Word) (h : StrobePerWord s) : StrobePerWord (busWord w s) := by
  unfold StrobePerWord at h ⊢
  rw [busWord_cfg]
  cases ht : s.cfg.transport with
  | gpio =>
    rw [ht] at h
    rw [wrWrites_busWord_gpio w ht, h, captureWords_busWord_gpio w ht]
    simp [List.replicate_succ']
  | byte =>
    rw [ht] at h
    rw [wrWrites_busWord_byte w ht, h]

theorem pinWrite_dc_strobePerWord (b : Bool) (h : StrobePerWord s) : StrobePerWord (pinWrite .dc b s) := by
  unfold StrobePerWord
  rw [wrWrites_pinWrite_dc, captureWords_pinWrite_dc, pinWrite_cfg]
  exact h

end Sys2Proof.Machine
end

section

open Sys2Proof.Machine Sys2Proof.Safety

/-- Settles O50: each word of a GPIO transport adds one capture and the two WR writes; a DC write and a byte word add neither. -/
theorem stepKeepsStrobePerWord : Obligations.StepKeepsStrobePerWord := by
  intro s t hs h
  exact step_keeps (P := StrobePerWord)
    (dc := fun b _ => pinWrite_dc_strobePerWord b)
    (word := fun w _ => busWord_strobePerWord w)
    (status := fun _ _ hu => hu)
    (stream := fun _ _ hu => hu)
    (faults := fun _ _ hu => hu)
    (ready := fun _ _ _ hu => hu)
    (aborted := fun _ hu => hu)
    hs h

/-- Settles O49, by the WR writes of a word and the level it leaves on each transport. -/
theorem everyWordPulsesWr : Obligations.EveryWordPulsesWr := by
  intro s
  refine ⟨fun w => ⟨fun h => ?_, fun h => ?_⟩, fun b => ?_⟩
  · exact ⟨wrWrites_busWord_gpio w h, busWord_wr_gpio w s h⟩
  · exact ⟨wrWrites_busWord_byte w h, busWord_wr_byte w s h⟩
  · exact ⟨wrWrites_pinWrite_dc b, rfl⟩

end

section
/-! What a command and a step can do beyond the bus (10_state.md R33, R35; 45_host_actions.md R151), and the state a variant does
not use (10_state.md R21, R22, R24, R30). -/

namespace Sys2Proof.Machine

open Sys2Proof.Safety

/-! ### A command and a step, split into what they do over the bus and what they decide -/

section inversion

variable {i : Instr} {s t : State}

/-- A command goes over the bus, in READY only, and then writes STATUS, PHASE and FAULTS alone. -/
theorem exec_busReach (h : exec i s = .next t) :
    ∃ u, BusReach s u ∧ (u = s ∨ s.phase = .ready) ∧
      t = { u with status := t.status, phase := t.phase, faults := t.faults } := by
  rcases exec_cases i s with ⟨_, _, _, k⟩ | ⟨_, _, k, _⟩ | ⟨_, _, _, k⟩ | ⟨_, _, _, k⟩ | ⟨_, _, _, _, _, _, _, k⟩ |
    ⟨u, hp, hu, k⟩ <;> rw [k] at h <;> cases h
  case inr.inr.inr.inr.inr => exact ⟨u, hu, .inr hp, rfl⟩
  all_goals exact ⟨s, .refl, .inl rfl, rfl⟩

/-- A command moves PHASE only by VERIFY_GPIOS, from NEW, to one of its two results (R33, 44_config_validator.md R141). -/
theorem exec_phase (h : exec i s = .next t) :
    t.phase = s.phase ∨ (i = .verifyGpios ∧ s.phase = .new ∧
      (t.phase = .ready ∧ t.status = .ok ∨ t.phase = .aborted ∧ t.status = .configError)) := by
  rcases exec_cases i s with ⟨_, _, _, k⟩ | ⟨_, _, k, _⟩ | ⟨hi, hp, _, k⟩ | ⟨hi, hp, _, k⟩ | ⟨_, _, _, _, _, _, _, k⟩ |
    ⟨u, _, hu, k⟩ <;> rw [k] at h <;> cases h
  · exact .inl rfl
  · exact .inl rfl
  · exact .inr ⟨hi, hp, .inl ⟨rfl, rfl⟩⟩
  · exact .inr ⟨hi, hp, .inr ⟨rfl, rfl⟩⟩
  · exact .inl rfl
  · exact .inl (busReach_onlyBus hu).phase

/-- A command writes FAULTS only by SET_ADDR_WIN, which records `F_COORD` (R35, 42_address_window.md R124). -/
theorem exec_faults (h : exec i s = .next t) :
    t.faults = s.faults ∨ ∃ xs ys xe ye, i = .setAddrWin xs ys xe ye ∧
      t.faults = { s.faults with coord := some (xs, ys) } := by
  rcases exec_cases i s with ⟨_, _, _, k⟩ | ⟨_, _, k, _⟩ | ⟨_, _, _, k⟩ | ⟨_, _, _, k⟩ | ⟨xs, ys, xe, ye, hi, _, _, k⟩ |
    ⟨u, _, hu, k⟩ <;> rw [k] at h <;> cases h
  case inr.inr.inr.inr.inl => exact .inr ⟨xs, ys, xe, ye, hi, rfl⟩
  case inr.inr.inr.inr.inr => exact .inl (busReach_onlyBus hu).faults
  all_goals exact .inl rfl

/-- A step takes bytes off the stream, goes over the bus, in READY only, and then writes STATUS, PHASE and FAULTS alone. -/
theorem step_busReach (h : step s = .next t) :
    s.refused = false ∧ ∃ bs u, BusReach (s.setStream bs) u ∧ (u = s.setStream bs ∨ s.phase = .ready) ∧
      t = { u with status := t.status, phase := t.phase, faults := t.faults } := by
  rcases step_cases s with ⟨_, k⟩ | ⟨_, _, k⟩ | ⟨hr, _, ⟨_, k⟩ | ⟨_, rest, _, k⟩ | ⟨_, k⟩ | ⟨i, rest, _, k⟩⟩ <;> rw [k] at h
  · cases h
  · cases h
  · cases h
    exact ⟨hr, s.stream, s, .refl, .inl rfl, rfl⟩
  · cases h
    exact ⟨hr, rest, s.setStream rest, .refl, .inl rfl, rfl⟩
  · cases h
    exact ⟨hr, [], s.setStream [], .refl, .inl rfl, rfl⟩
  · exact ⟨hr, rest, exec_busReach h⟩

/-- No step changes the attach parameters (R36, R37). -/
theorem step_params (h : step s = .next t) : t.cfg = s.cfg ∧ t.pins = s.pins := by
  obtain ⟨-, bs, u, hu, -, ht⟩ := step_busReach h
  rw [ht]
  exact ⟨(busReach_onlyBus hu).cfg, (busReach_onlyBus hu).pins⟩

end inversion

/-! ### The state a variant does not use -/

/-- What the variant of `s` does not use is in `t` as in `s`: LATCH outside LATCHED8, WR and the data lines on the byte transport,
DB8 to DB15 in LATCHED8, the cache outside OPT16 and SLOW16 (R21, R22, R24, R30). -/
structure UnusedKept (s t : State) : Prop where
  latch : cfgVariant s.cfg ≠ .latched8 → t.latch = s.latch
  lines : cfgVariant s.cfg = .bytew → t.db = s.db ∧ t.wr = s.wr
  upperLines : cfgVariant s.cfg = .latched8 → ∀ i : Fin 16, 8 ≤ i.val → t.db[i] = s.db[i]
  cache : ¬ UsesCache s.cfg → t.prev = s.prev ∧ t.prevValid = s.prevValid

theorem unusedKept_refl (s : State) : UnusedKept s s :=
  ⟨fun _ => rfl, fun _ => ⟨rfl, rfl⟩, fun _ _ _ => rfl, fun _ => ⟨rfl, rfl⟩⟩

theorem unusedKept_trans {s t u : State} (hc : t.cfg = s.cfg) (h : UnusedKept s t) (k : UnusedKept t u) :
    UnusedKept s u where
  latch hv := (k.latch (hc ▸ hv)).trans (h.latch hv)
  lines hv := (k.lines (hc ▸ hv)).imp (·.trans (h.lines hv).1) (·.trans (h.lines hv).2)
  upperLines hv i hi := (k.upperLines (hc ▸ hv) i hi).trans (h.upperLines hv i hi)
  cache hv := (k.cache (hc ▸ hv)).imp (·.trans (h.cache hv).1) (·.trans (h.cache hv).2)

theorem pinWrite_dc_unusedKept (b : Bool) (s : State) : UnusedKept s (pinWrite .dc b s) :=
  ⟨fun _ => rfl, fun _ => ⟨rfl, rfl⟩, fun _ _ _ => rfl, fun _ => ⟨rfl, rfl⟩⟩

/-- A word step touches only what its variant uses: DB8 to DB15 are no lines of the latched protocol (41_bus_writer.md R108). -/
theorem busWord_unusedKept (w : Word) (s : State) : UnusedKept s (busWord w s) := by
  rw [busWord_eq_afterWord]
  constructor
  · intro hv
    cases h : cfgVariant s.cfg with
    | latched8 => exact absurd h hv
    | _ => simp only [afterWord, h, afterStrobe]
  · intro hv
    simp only [afterWord, hv, and_self]
  · intro hv i hi
    have hrole : latchedRole (.db i) = false := decide_eq_false (Nat.not_lt.2 hi)
    simpa [afterWord, hv] using latchedEvents_levelAfter_of_not_role w s hrole s.db[i]
  · intro hv
    cases h : cfgVariant s.cfg with
    | opt16 => exact absurd (.inl h) hv
    | slow16 => exact absurd (.inr h) hv
    | _ => simp only [afterWord, h, afterStrobe, and_self]

theorem busReach_unusedKept {s t : State} (h : BusReach s t) : UnusedKept s t := by
  induction h with
  | refl => exact unusedKept_refl s
  | dc b hu ih => exact unusedKept_trans (busReach_onlyBus hu).cfg ih (pinWrite_dc_unusedKept b _)
  | word w hu ih => exact unusedKept_trans (busReach_onlyBus hu).cfg ih (busWord_unusedKept w _)

/-- A command keeps what its variant does not use. -/
theorem exec_unusedKept {i : Instr} {s t : State} (h : exec i s = .next t) : UnusedKept s t := by
  obtain ⟨u, hu, -, ht⟩ := exec_busReach h
  obtain ⟨latch, lines, upper, cache⟩ := busReach_unusedKept hu
  rw [ht]
  exact ⟨latch, lines, upper, cache⟩

/-- A step keeps what its variant does not use. -/
theorem step_unusedKept {s t : State} (h : step s = .next t) : UnusedKept s t := by
  obtain ⟨-, bs, u, hu, -, ht⟩ := step_busReach h
  obtain ⟨latch, lines, upper, cache⟩ := busReach_unusedKept hu
  rw [ht]
  exact ⟨latch, lines, upper, cache⟩

/-- PREV_VALID is never cleared over the bus (10_state.md R31). -/
theorem busReach_prevValid {s t : State} (h : BusReach s t) (hs : s.prevValid = true) : t.prevValid = true := by
  refine busReach_keeps (P := fun u => u.prevValid = true) (fun _ _ hu => hu) (fun w u hu => ?_) h hs
  by_cases hc : UsesCache u.cfg
  · rw [busWord_of_usesCache w u hc]
  · rw [((busWord_unusedKept w u).cache hc).2, hu]

/-! ### What every command leaves alone -/

/-- No command changes the configuration, the pins, the refusal or the stream, and the trace only grows (10_state.md R36, R40). -/
theorem exec_keeps_host {i : Instr} {s t : State} (h : exec i s = .next t) :
    t.cfg = s.cfg ∧ t.pins = s.pins ∧ t.refused = s.refused ∧ t.stream = s.stream ∧ s.trace <+: t.trace ∧
      (s.prevValid = true → t.prevValid = true) := by
  obtain ⟨u, hu, -, ht⟩ := exec_busReach h
  obtain ⟨cfg, pins, refused, -, -, stream, trace⟩ := busReach_onlyBus hu
  rw [ht]
  exact ⟨cfg, pins, refused, stream, trace, busReach_prevValid (t := u) hu⟩

end Sys2Proof.Machine
end

section

open Sys2Proof.Machine Sys2Proof.Safety

/-- Settles O46: a step leaves the unused state as it found it, so attach's values stay. -/
theorem stepKeepsUnusedStateUntouched : Obligations.StepKeepsUnusedStateUntouched := by
  rintro s t ⟨latchX, linesX, upperX, fresh⟩ h
  obtain ⟨latch, lines, upper, cache⟩ := step_unusedKept h
  unfold UnusedStateUntouched
  rw [(step_params h).1]
  refine ⟨fun hv => ?_, fun hv => ?_, fun hv i hi => ?_, fun hv => ?_⟩
  · rw [latch hv, latchX hv]
  · rw [(lines hv).1, (lines hv).2]
    exact linesX hv
  · rw [upper hv i hi, upperX hv i hi]
  · rw [(cache hv).1, (cache hv).2]
    exact fresh hv

/-- Settles O39: a command goes over the bus, which touches only what the variant uses, and then writes STATUS, PHASE by
VERIFY_GPIOS, and FAULTS by SET_ADDR_WIN. -/
theorem commandsLeaveTheRestAlone : Obligations.CommandsLeaveTheRestAlone := by
  intro i s t h
  obtain ⟨cfg, pins, refused, stream, trace, valid⟩ := exec_keeps_host h
  obtain ⟨latch, lines, upper, cache⟩ := exec_unusedKept h
  have hphase : i ≠ .verifyGpios → t.phase = s.phase := fun hi =>
    (exec_phase h).resolve_right fun ⟨hv, _⟩ => hi hv
  have hfaults : (∀ xs ys xe ye, i ≠ .setAddrWin xs ys xe ye) → t.faults = s.faults := fun hi =>
    (exec_faults h).resolve_right fun ⟨xs, ys, xe, ye, hw, _⟩ => hi xs ys xe ye hw
  have hkept : t.faults.truncated = s.faults.truncated ∧ (s.faults.coord ≠ none → t.faults.coord ≠ none) := by
    rcases exec_faults h with hf | ⟨_, _, _, _, -, hf⟩ <;> rw [hf]
    · exact ⟨rfl, id⟩
    · exact ⟨rfl, fun _ => nofun⟩
  exact ⟨cfg, pins, refused, stream, trace, valid, hphase, hfaults, hkept.1, hkept.2, latch, lines, upper, cache⟩

/-- Settles O11: only a decoded command moves PHASE, and of these only VERIFY_GPIOS in NEW. -/
theorem stepMovesPhaseOnlyByValidation : Obligations.StepMovesPhaseOnlyByValidation := by
  intro s t h hne
  rcases step_cases s with ⟨_, k⟩ | ⟨_, _, k⟩ | ⟨_, _, ⟨_, k⟩ | ⟨_, _, _, k⟩ | ⟨_, k⟩ | ⟨i, rest, hd, k⟩⟩ <;> rw [k] at h
  · cases h
  · cases h
  · cases h; exact absurd rfl hne
  · cases h; exact absurd rfl hne
  · cases h; exact absurd rfl hne
  · obtain ⟨rfl, hnew, hend⟩ := (exec_phase h).resolve_left hne
    exact ⟨hnew, ⟨rest, hd⟩, hend⟩

end

section
/-! Only assigned pins are written (10_state.md R25): a word drives pins of its variant alone, and where attach did not
refuse the configuration these are pins the validator requires (44_config_validator.md R140). -/

namespace Sys2Proof.Machine

open Sys2Proof.Safety

/-! ### The pins a word drives -/

/-- The roles a word step of the variant may drive (41_bus_writer.md R101, R106, R108, R109). -/
def wordRole : Variant → PinRole → Bool
  | .opt16, p | .slow16, p | .naive16, p => p != .dc && p != .latch
  | .latched8, p => latchedRole p
  | .bytew, _ => false

/-- A word step drives the roles of its variant alone. -/
theorem busWord_drives_wordRole {w : Word} {s : State} {p : PinRole} {b : Bool}
    (h : Event.pin p b ∈ (busWord w s).trace) : Event.pin p b ∈ s.trace ∨ wordRole (cfgVariant s.cfg) p = true := by
  rcases busWord_trace_cases w s with ⟨hv, ht⟩ | ⟨hv, ht⟩ | ⟨-, ht⟩
  · rw [ht, List.mem_append, pin_mem_strobeEvents] at h
    refine h.imp_right fun hp => ?_
    have hrole : (p != .dc && p != .latch) = true := by
      rcases hp with ⟨rfl, -⟩ | ⟨i, -, rfl, -⟩ <;> rfl
    rcases hv with hv | hv | hv <;> rw [hv] <;> exact hrole
  · rw [ht, List.mem_append, List.mem_append] at h
    rcases h with (h | h) | h
    · exact .inl h
    · obtain ⟨q, hq, he⟩ := List.mem_map.1 h
      cases he
      rw [hv]
      exact .inr (latchedEvents_roles s w q hq)
    · simp at h
  · exact .inl (by simpa [ht] using h)

/-! ### The pins the validator requires -/

/-- Attach refuses the naive flag together with the latched one (60_exceptions.md R167). -/
theorem not_naive_latched_of_accepted {c : Cfg} (h : cfgRefused c = false) : ¬ (c.naive = true ∧ c.latched = true) := by
  rintro ⟨hn, hl⟩
  simp [cfgRefused, refusalReasons, hn, hl] at h

theorem validate_assigned {c : Cfg} {pins : BitVec 19} {p : PinRole} (hv : validate c pins = true)
    (hp : p ∈ requiredPins c) : pinAssigned pins p = true := List.all_eq_true.1 hv p hp

theorem dc_mem_requiredPins (c : Cfg) : PinRole.dc ∈ requiredPins c := List.mem_cons_self

/-- On a GPIO transport the validator requires every role a word may drive: a parallel word needs a configuration without the
latched flag, a latched word one with it. -/
theorem wordRole_mem_requiredPins {c : Cfg} {p : PinRole} (hr : cfgRefused c = false)
    (hp : wordRole (cfgVariant c) p = true) : p ∈ requiredPins c := by
  have hmix := not_naive_latched_of_accepted hr
  cases ht : c.transport with
  | byte => simp [cfgVariant_byte ht, wordRole] at hp
  | gpio =>
    cases hl : c.latched with
    | true =>
      have hn : c.naive = false := by simpa [hl] using hmix
      have hrole : latchedRole p = true := by simpa [cfgVariant, ht, hn, hl, wordRole] using hp
      cases p with
      | db i =>
        have hi : i.val < 8 := of_decide_eq_true hrole
        simp [requiredPins, ht, hl, allLines, hi]
      | wr => simp [requiredPins, ht]
      | latch => simp [requiredPins, ht, hl]
      | dc => exact dc_mem_requiredPins c
    | false =>
      have hrole : (p != .dc && p != .latch) = true := by
        cases hn : c.naive <;> cases hs : c.slow <;> simpa [cfgVariant, ht, hn, hl, hs, wordRole] using hp
      cases p with
      | db i => simp [requiredPins, ht, hl, allLines]
      | wr => simp [requiredPins, ht]
      | latch => cases hrole
      | dc => exact dc_mem_requiredPins c

/-! ### The invariant -/

/-- Over the bus, a validated configuration writes assigned pins alone. -/
theorem busReach_onlyAssignedPins {s t : State} (hr : cfgRefused s.cfg = false) (hv : validate s.cfg s.pins = true)
    (h : BusReach s t) (hs : OnlyAssignedPins s) : OnlyAssignedPins t := by
  induction h with
  | refl => exact hs
  | dc b hu ih =>
    intro p l hp
    rw [pinWrite_trace, List.mem_append, List.mem_singleton] at hp
    rcases hp with hp | ⟨⟨⟩⟩
    · exact ih p l hp
    · rw [pinWrite_pins, (busReach_onlyBus hu).pins]
      exact validate_assigned hv (dc_mem_requiredPins s.cfg)
  | word w hu ih =>
    intro p l hp
    rw [busWord_pins]
    rcases busWord_drives_wordRole hp with hp | hrole
    · exact ih p l hp
    · rw [(busReach_onlyBus hu).cfg] at hrole
      rw [(busReach_onlyBus hu).pins]
      exact validate_assigned hv (wordRole_mem_requiredPins hr hrole)

theorem step_attachDecided {s t : State} (hs : AttachDecided s) (h : step s = .next t) : AttachDecided t := by
  have bus : ∀ u v, OnlyBusChanged u v → AttachDecided u → AttachDecided v := by
    rintro u v ⟨cfg, pins, refused, phase, -, -, -⟩ ⟨hr, hv⟩
    simp only [AttachDecided, cfg, pins, refused, phase]
    exact ⟨hr, hv⟩
  exact step_keeps (P := AttachDecided)
    (dc := fun b u => bus u _ (pinWrite_onlyBus _ b u))
    (word := fun w u => bus u _ (busWord_onlyBus w u))
    (status := fun _ _ hu => hu)
    (stream := fun _ _ hu => hu)
    (faults := fun _ _ hu => hu)
    (ready := fun _ _ hv hu => ⟨hu.1, fun _ => hv⟩)
    (aborted := fun _ hu => ⟨hu.1, nofun⟩)
    hs h

theorem step_onlyAssignedPins {s t : State} (hd : AttachDecided s) (hs : OnlyAssignedPins s) (h : step s = .next t) :
    OnlyAssignedPins t := by
  obtain ⟨hr, bs, u, hu, hphase, ht⟩ := step_busReach h
  have key : OnlyAssignedPins u := by
    rcases hphase with rfl | hready
    · exact hs
    · exact busReach_onlyAssignedPins (s := s.setStream bs) (hd.1.symm.trans hr) (hd.2 hready) hu hs
  rw [ht]
  exact key

end Sys2Proof.Machine
end

section

open Sys2Proof.Machine Sys2Proof.Safety

/-- Settles O45: only a READY step writes pins, and READY means that the validator found every pin of the variant assigned. -/
theorem stepKeepsOnlyAssignedPins : Obligations.StepKeepsOnlyAssignedPins := by
  rintro s t ⟨hd, hs⟩ h
  exact ⟨step_attachDecided hd h, step_onlyAssignedPins hd hs h⟩

end

section
/-! The register views, field by field (10_state.md R36 to R38). -/

namespace Sys2Proof.Machine

variable (s : State)

theorem viewCfg_flags :
    (viewCfg s).getLsbD 0 = (s.cfg.transport == .byte) ∧ (viewCfg s).getLsbD 1 = s.cfg.latched ∧
    (viewCfg s).getLsbD 2 = s.cfg.slow ∧ (viewCfg s).getLsbD 3 = s.cfg.naive ∧
    (viewCfg s).getLsbD 6 = (s.cfg.firstWord == .trustCache) ∧ (viewCfg s).getLsbD 7 = s.cfg.allocOk := by
  simp only [viewCfg, BitVec.getLsbD_append, BitVec.getLsbD_ofBool]
  simp

theorem viewCfg_rot : (viewCfg s).extractLsb' 4 2 = rotCode s.cfg.rot := by
  apply BitVec.eq_of_getLsbD_eq
  intro i hi
  simp only [viewCfg, BitVec.getLsbD_extractLsb', BitVec.getLsbD_append, BitVec.getLsbD_ofBool]
  interval_cases i <;> simp

theorem viewCfg_variant : (viewCfg s).extractLsb' 8 3 = variantCode (cfgVariant s.cfg) := by
  apply BitVec.eq_of_getLsbD_eq
  intro i hi
  simp only [viewCfg, BitVec.getLsbD_extractLsb', BitVec.getLsbD_append, BitVec.getLsbD_ofBool]
  interval_cases i <;> simp

theorem viewCfg_reserved : (viewCfg s).extractLsb' 11 5 = 0 := by
  apply BitVec.eq_of_getLsbD_eq
  intro i hi
  simp only [viewCfg, BitVec.getLsbD_extractLsb', BitVec.getLsbD_append, BitVec.getLsbD_ofBool]
  interval_cases i <;> simp

theorem viewPins_getLsbD {n : Nat} (h : n < 19) : (viewPins s).getLsbD n = s.pins.getLsbD n := by
  simp [viewPins]
  omega

theorem viewPins_reserved : (viewPins s).extractLsb' 19 13 = 0 := by
  apply BitVec.eq_of_getLsbD_eq
  intro i hi
  simp [viewPins]

/-- View 1 shows each role at its number (R37). -/
theorem viewPins_assigned (p : PinRole) : pinAssigned s.pins p = (viewPins s).getLsbD (pinIndex p) := by
  refine (viewPins_getLsbD s ?_).symm
  cases p <;> simp [pinIndex]
  omega

theorem viewPrev_prev : (viewPrev s).extractLsb' 0 16 = s.prev := by
  apply BitVec.eq_of_getLsbD_eq
  intro i hi
  simp only [viewPrev, BitVec.getLsbD_extractLsb', BitVec.getLsbD_append, Nat.zero_add, hi, decide_true, Bool.true_and,
    if_true]

theorem viewPrev_valid : (viewPrev s).getLsbD 16 = s.prevValid := by
  simp only [viewPrev, BitVec.getLsbD_append]
  simp

end Sys2Proof.Machine
end

section

open Sys2Proof.Machine

/-- Settles O15, view by view: each field reads its code, and each code is the one the rules give. -/
theorem viewsHoldTheirFields : Obligations.ViewsHoldTheirFields := by
  intro s rot variant
  have hrot : rot = rotCode s.cfg.rot := viewCfg_rot s
  have hvariant : variant = variantCode (cfgVariant s.cfg) := viewCfg_variant s
  obtain ⟨hbyte, hlatched, hslow, hnaive, htrust, halloc⟩ := viewCfg_flags s
  refine ⟨by rw [hbyte, beq_iff_eq], hlatched, hslow, hnaive, by rw [htrust, beq_iff_eq], halloc, viewCfg_reserved s,
    ?_, ?_, ?_, ?_, ?_, ?_, ?_, ?_⟩
  · rw [hrot]
    refine ⟨?_, ?_, ?_, ?_⟩ <;> intro h <;> rw [h] <;> rfl
  · rw [hvariant]
    refine ⟨?_, ?_, ?_, ?_, ?_⟩ <;> intro h <;> rw [h] <;> rfl
  · rw [hvariant]
    refine ⟨?_, ?_, ?_, ?_, ?_⟩ <;> intros <;> simp [cfgVariant, variantCode, *]
  · exact ⟨fun _ => viewPins_getLsbD s, viewPins_reserved s, fun i => viewPins_assigned s (.db i), viewPins_assigned s .wr,
      viewPins_assigned s .dc, viewPins_assigned s .latch⟩
  · refine ⟨?_, ?_, ?_⟩ <;> intro h <;> simp [viewPhase, h, phaseCode]
  · refine ⟨?_, ?_, ?_, ?_, ?_, ?_, ?_, ?_⟩ <;> intro h <;> simp [viewStatus, h, statusCode]
  · exact ⟨viewPrev_prev s, viewPrev_valid s⟩
  · exact ⟨fun _ => rfl, rfl, rfl, rfl⟩

end

section
/-! Words are whole on the bus (20_memory.md R58, R66): on the byte transport a word is two bytes at one DC level and no capture,
on a GPIO transport it is one capture and no byte. -/

namespace Sys2Proof.Machine

open Sys2Proof.Safety

variable {s : State}

/-! ### The bytes and captures a word adds -/

/-- The bytes of a word on the byte transport, high byte first, both at the word's DC level (20_memory.md R58, R66). -/
def wordOut (lw : Level × Word) : List (Level × Byte) := [(lw.1, highByte lw.2), (lw.1, lowByte lw.2)]

theorem busWord_trace_byte (w : Word) (h : s.cfg.transport = .byte) :
    (busWord w s).trace = s.trace ++ [.byteOut s.dc (highByte w), .byteOut s.dc (lowByte w)] := by
  simpa [cfgVariant_byte h] using busWord_trace_cases w s

theorem outBytes_busWord_byte (w : Word) (h : s.cfg.transport = .byte) :
    outBytes (busWord w s).trace = outBytes s.trace ++ wordOut (s.dc, w) := by
  rw [busWord_trace_byte w h, outBytes_append]
  rfl

theorem captureWords_busWord_byte (w : Word) (h : s.cfg.transport = .byte) :
    captureWords (busWord w s).trace = captureWords s.trace := by
  rw [busWord_trace_byte w h, captureWords_append]
  exact List.append_nil _

theorem outBytes_busWord_gpio (w : Word) (h : s.cfg.transport = .gpio) :
    outBytes (busWord w s).trace = outBytes s.trace := by
  rcases busWord_trace_cases w s with ⟨-, ht⟩ | ⟨-, ht⟩ | ⟨hv, -⟩
  · rw [ht, outBytes_append, outBytes_strobe, List.append_nil]
  · simp only [ht, outBytes_append, outBytes_pins, List.append_nil]
    exact List.append_nil _
  · exact absurd hv (cfgVariant_gpio h)

theorem outBytes_pinWrite_dc (b : Bool) : outBytes (pinWrite .dc b s).trace = outBytes s.trace := by
  simp [outBytes_append, outBytes]

/-! ### The invariant -/

theorem wordsAreWhole_gpio_iff (h : s.cfg.transport = .gpio) : WordsAreWhole s ↔ outBytes s.trace = [] := by
  rw [WordsAreWhole, h]

theorem wordsAreWhole_byte_iff (h : s.cfg.transport = .byte) :
    WordsAreWhole s ↔ (∃ ws : List (Level × Word), outBytes s.trace = ws.flatMap wordOut) ∧ captureWords s.trace = [] := by
  rw [WordsAreWhole, h]
  rfl

/-- The fact reads only the configuration, the bytes and the captures. -/
theorem wordsAreWhole_of_same {t : State} (hc : t.cfg = s.cfg) (ho : outBytes t.trace = outBytes s.trace)
    (hw : captureWords t.trace = captureWords s.trace) (h : WordsAreWhole s) : WordsAreWhole t := by
  rw [WordsAreWhole, hc, ho, hw]
  exact h

theorem pinWrite_dc_wordsAreWhole (b : Bool) (h : WordsAreWhole s) : WordsAreWhole (pinWrite .dc b s) :=
  wordsAreWhole_of_same (pinWrite_cfg _ b s) (outBytes_pinWrite_dc b) (captureWords_pinWrite_dc b) h

theorem busWord_wordsAreWhole (w : Word) (h : WordsAreWhole s) : WordsAreWhole (busWord w s) := by
  cases ht : s.cfg.transport with
  | gpio =>
    rw [wordsAreWhole_gpio_iff ht] at h
    rw [wordsAreWhole_gpio_iff (by rw [busWord_cfg, ht]), outBytes_busWord_gpio w ht, h]
  | byte =>
    obtain ⟨⟨ws, hws⟩, hcap⟩ := (wordsAreWhole_byte_iff ht).1 h
    refine (wordsAreWhole_byte_iff (by rw [busWord_cfg, ht])).2 ⟨⟨ws ++ [(s.dc, w)], ?_⟩, ?_⟩
    · rw [outBytes_busWord_byte w ht, hws, List.flatMap_append, List.flatMap_singleton]
    · rw [captureWords_busWord_byte w ht, hcap]

end Sys2Proof.Machine
end

section

open Sys2Proof.Machine Sys2Proof.Safety

/-- Settles O47: a bus word adds two bytes at one DC level on the byte transport and no byte on a GPIO transport; a DC write
adds neither byte nor capture. -/
theorem stepKeepsWordsWhole : Obligations.StepKeepsWordsWhole := by
  intro s t hs h
  exact step_keeps (P := WordsAreWhole)
    (dc := fun b _ => pinWrite_dc_wordsAreWhole b)
    (word := fun w _ => busWord_wordsAreWhole w)
    (status := fun _ _ hu => hu)
    (stream := fun _ _ hu => hu)
    (faults := fun _ _ hu => hu)
    (ready := fun _ _ _ hu => hu)
    (aborted := fun _ hu => hu)
    hs h

end

section
/-! The words of the trace where captures are exact (20_memory.md R66, 41_bus_writer.md R107, R109): a bus word, a register write
and a buffer add exactly the words they send, on every transport. -/

namespace Sys2Proof.Machine

open Sys2Proof.Safety

variable {s : State}

/-! ### One bus word -/

/-- Where captures are exact, a line that a parallel word step does not re-drive holds the word's bit: only `TRUST_CACHE` leaves
one undriven. -/
theorem db_of_not_driven {w : Word} {i : Fin 16}
    (hv : cfgVariant s.cfg = .opt16 ∨ cfgVariant s.cfg = .slow16 ∨ cfgVariant s.cfg = .naive16)
    (hcache : CacheMatchesLines s) (hexact : CapturesExactly s.cfg) (hi : i ∉ drivenLines s w) :
    s.db[i] = levelOf (w.getLsbD i) := by
  have differential (hc : UsesCache s.cfg) : s.db[i] = levelOf (w.getLsbD i) := by
    have hforce : s.cfg.firstWord = .forceFull := hexact.resolve_right fun ⟨ho, hs⟩ => hc.elim ho hs
    exact (lineHolds_of_not_driven hc hcache hi).resolve_right fun ⟨_, htrust, _⟩ => by simp [hforce] at htrust
  rcases hv with hv | hv | hv
  · exact differential (.inl hv)
  · exact differential (.inr hv)
  · have hall : drivenLines s w = List.finRange 16 := by simp only [drivenLines, hv]
    exact absurd (List.mem_finRange i) (hall ▸ hi)

theorem drivenLevels_eq_wordLevels (w : Word)
    (hv : cfgVariant s.cfg = .opt16 ∨ cfgVariant s.cfg = .slow16 ∨ cfgVariant s.cfg = .naive16)
    (hcache : CacheMatchesLines s) (hexact : CapturesExactly s.cfg) :
    drivenLevels (drivenLines s w) w s.db = wordLevels w := by
  ext i hi
  have hline : (drivenLevels (drivenLines s w) w s.db)[i] = levelOf (w.getLsbD i) := by
    refine (drivenLevels_get _ w s.db ⟨i, hi⟩).trans ?_
    split
    · rfl
    · next h => exact db_of_not_driven hv hcache hexact h
  rw [hline, wordLevels, Vector.getElem_ofFn]

/-- A GPIO word captures exactly itself (R107, R108). -/
theorem captureWords_busWord_exact (w : Word) (ht : s.cfg.transport = .gpio) (hcache : CacheMatchesLines s)
    (hexact : CapturesExactly s.cfg) :
    captureWords (busWord w s).trace = captureWords s.trace ++ [(s.dc, wordLevels w)] := by
  rcases busWord_trace_cases w s with ⟨hv, h⟩ | ⟨-, h⟩ | ⟨hv, -⟩
  · rw [h, captureWords_append, captureWords_strobe, drivenLevels_eq_wordLevels w hv hcache hexact]
  · simp only [h, captureWords_append, captureWords_pins, List.append_nil]
    rfl
  · exact absurd hv (cfgVariant_gpio ht)

/-- Whole words are read back from their bytes, with whatever follows them (R66). -/
theorem pairWords_wordOut_append (ws : List (Level × Word)) (bs : List (Level × Byte)) :
    pairWords (ws.flatMap wordOut ++ bs) = ws.map (fun lw => (lw.1, wordLevels lw.2)) ++ pairWords bs := by
  induction ws with
  | nil => rfl
  | cons lw ws ih => simp [wordOut, pairWords, ih]

/-- A word of the byte transport is read back from its two bytes. -/
theorem pairWords_busWord (w : Word) (ht : s.cfg.transport = .byte) (hwhole : WordsAreWhole s) :
    pairWords (outBytes (busWord w s).trace) = pairWords (outBytes s.trace) ++ [(s.dc, wordLevels w)] := by
  obtain ⟨⟨ws, hws⟩, -⟩ := (wordsAreWhole_byte_iff ht).1 hwhole
  have hold := pairWords_wordOut_append ws []
  have hnew := pairWords_wordOut_append (ws ++ [(s.dc, w)]) []
  simp only [List.append_nil, pairWords] at hold hnew
  rw [outBytes_busWord_byte w ht, hws, hold, ← List.flatMap_singleton wordOut, ← List.flatMap_append, hnew, List.map_append]
  rfl

/-! ### States whose words reach the trace exactly -/

/-- Every word sent from here on shows in the trace as itself: captures are exact, and on the byte transport the words so far are
whole, so that the next bytes are paired with each other (R66). -/
structure SendsExactly (s : State) : Prop where
  cache : CacheMatchesLines s
  exact : CapturesExactly s.cfg
  whole : s.cfg.transport = .byte → WordsAreWhole s

theorem pinWrite_dc_sendsExactly (b : Bool) (h : SendsExactly s) : SendsExactly (pinWrite .dc b s) :=
  ⟨pinWrite_dc_cacheMatchesLines b h.cache, h.exact, fun ht => pinWrite_dc_wordsAreWhole b (h.whole ht)⟩

theorem busWord_sendsExactly (w : Word) (h : SendsExactly s) : SendsExactly (busWord w s) where
  cache := busWord_cacheMatchesLines w h.cache
  exact := by rw [busWord_cfg]; exact h.exact
  whole ht := busWord_wordsAreWhole w (h.whole (by rwa [busWord_cfg] at ht))

theorem busReach_sendsExactly {t : State} (hr : BusReach s t) (h : SendsExactly s) : SendsExactly t :=
  busReach_keeps (fun b _ => pinWrite_dc_sendsExactly b) (fun w _ => busWord_sendsExactly w) hr h

theorem words_pinWrite_dc (b : Bool) (tp : Transport) : words tp (pinWrite .dc b s).trace = words tp s.trace := by
  cases tp with
  | gpio => exact captureWords_pinWrite_dc b
  | byte => exact congrArg pairWords (outBytes_pinWrite_dc b)

/-- A word sent with DC at a known level adds exactly that word. -/
theorem words_busWord {w : Word} {b : Bool} (h : SendsExactly s) (hdc : s.dc = levelOf b) :
    words s.cfg.transport (busWord w s).trace = words s.cfg.transport s.trace ++ [exactWord (b, w)] := by
  obtain ⟨hcache, hexact, hwhole⟩ := h
  have hword : exactWord (b, w) = (s.dc, wordLevels w) := by rw [hdc]; rfl
  rw [hword]
  cases ht : s.cfg.transport with
  | gpio => exact captureWords_busWord_exact w ht hcache hexact
  | byte => exact pairWords_busWord w ht (hwhole ht)

/-! ### A buffer and a register write -/

/-- The words of a buffer, all at the level DC has. -/
theorem words_busWords {b : Bool} (ws : List Word) (h : SendsExactly s) (hdc : s.dc = levelOf b) :
    words s.cfg.transport (busWords ws s).trace =
      words s.cfg.transport s.trace ++ (ws.map fun w => (b, w)).map exactWord := by
  induction ws generalizing s with
  | nil => exact (List.append_nil _).symm
  | cons w ws ih =>
    have hrest := ih (busWord_sendsExactly w h) ((busWord_dc w s).trans hdc)
    rw [busWord_cfg, words_busWord h hdc, List.append_assoc] at hrest
    exact hrest

/-- One phase of a register write: DC to its level, then the word (40_register_protocol.md R90). -/
theorem words_phase (b : Bool) (w : Word) (h : SendsExactly s) :
    words s.cfg.transport (busWord w (pinWrite .dc b s)).trace = words s.cfg.transport s.trace ++ [exactWord (b, w)] := by
  have hword := words_busWord (w := w) (pinWrite_dc_sendsExactly b h) rfl
  rwa [pinWrite_cfg, words_pinWrite_dc] at hword

/-- The data phase follows the command phase (40_register_protocol.md R90). -/
theorem regWrite_some (a : Byte) (v : Word) (s : State) :
    regWrite a (some v) s = busWord v (pinWrite .dc (dcData s.cfg) (regWrite a none s)) := by
  rw [← regWrite_cfg a none s]
  rfl

/-- A register write shows as the words of R90: the address as a command, then the value as data. -/
theorem words_regWrite (a : Byte) (v : Option Word) (h : SendsExactly s) :
    words s.cfg.transport (regWrite a v s).trace =
      words s.cfg.transport s.trace ++ (regWords s.cfg (a, v)).map exactWord := by
  have haddr : words s.cfg.transport (regWrite a none s).trace =
      words s.cfg.transport s.trace ++ [exactWord (s.cfg.dcCmd, a.setWidth 16)] := words_phase _ _ h
  cases v with
  | none => exact haddr
  | some v =>
    have hvalue := words_phase (dcData s.cfg) v (busReach_sendsExactly (regWrite_busReach a none s) h)
    rw [regWrite_cfg, haddr, List.append_assoc] at hvalue
    rw [regWrite_some]
    exact hvalue

end Sys2Proof.Machine
end

section
/-! SET_ADDR_WIN on the panel (42_address_window.md R121, R122): the three register writes it sends, and their words. -/

namespace Sys2Proof.Machine

open Sys2Proof.Safety

variable {s : State}

/-- On the panel the axis mapping gives the table's values (R121). -/
theorem axisMap_eq_windowTable (c : Cfg) {xs ys : Word} (h : InPanel xs ys) :
    axisMap c xs.toNat ys.toNat =
      (((windowTable c.rot xs.toNat ys.toNat).1 : Int), ((windowTable c.rot xs.toNat ys.toNat).2 : Int)) := by
  obtain ⟨hx, hy⟩ := h
  have mirrorX : ((239 - xs.toNat : Nat) : Int) = (panelWidth : Int) - 1 - xs.toNat := by simp only [panelWidth]; omega
  have mirrorY : ((319 - ys.toNat : Nat) : Int) = (panelHeight : Int) - 1 - ys.toNat := by simp only [panelHeight]; omega
  cases hr : c.rot <;> simp only [axisMap, rotParam, axisCells, axisValue, hr, windowTable, mirrorX, mirrorY]

/-- The register writes of SET_ADDR_WIN for the counters `x` and `y`: X, Y, and the prime (R122). -/
def sendWindow (x y : Word) (s : State) : State :=
  regWrite s.cfg.regRam none (regWrite s.cfg.regY (some y) (regWrite s.cfg.regX (some x) s))

/-- The words of those register writes. -/
def windowWords (c : Cfg) (x y : Word) : List (Bool × Word) :=
  regWords c (c.regX, some x) ++ regWords c (c.regY, some y) ++ regWords c (c.regRam, none)

/-- On the panel SET_ADDR_WIN sends the table's counters and the prime, and ends with OK. -/
theorem exec_setAddrWin (xs ys xe ye : Word) (hr : s.phase = .ready) (hp : InPanel xs ys) :
    exec (.setAddrWin xs ys xe ye) s =
      .next ((sendWindow (BitVec.ofNat 16 (windowTable s.cfg.rot xs.toNat ys.toNat).1)
        (BitVec.ofNat 16 (windowTable s.cfg.rot xs.toNat ys.toNat).2) s).setStatus .ok) := by
  change whenReady (windowBody xs ys) s = _
  rw [whenReady_ready hr, windowBody, if_pos ((coordsOk_iff xs ys).2 hp), axisMap_eq_windowTable s.cfg hp]
  simp only [BitVec.ofInt_natCast]
  rfl

theorem words_sendWindow (x y : Word) (h : SendsExactly s) :
    words s.cfg.transport (sendWindow x y s).trace =
      words s.cfg.transport s.trace ++ (windowWords s.cfg x y).map exactWord := by
  have hx : SendsExactly (regWrite s.cfg.regX (some x) s) := busReach_sendsExactly (regWrite_busReach _ _ s) h
  have hy : SendsExactly (regWrite s.cfg.regY (some y) (regWrite s.cfg.regX (some x) s)) :=
    busReach_sendsExactly (regWrite_busReach _ _ _) hx
  have wx := words_regWrite s.cfg.regX (some x) h
  have wy := words_regWrite s.cfg.regY (some y) hx
  have wram := words_regWrite s.cfg.regRam none hy
  simp only [regWrite_cfg] at wy wram
  rw [sendWindow, wram, wy, wx, windowWords]
  simp only [List.map_append, List.append_assoc]

theorem sendWindow_cfg (x y : Word) (s : State) : (sendWindow x y s).cfg = s.cfg := by
  simp only [sendWindow, regWrite_cfg]

end Sys2Proof.Machine
end

section
/-! What the observer makes of known words (20_memory.md R65): a command word selects a register, a data word goes where the index
points. -/

namespace Sys2Proof.Machine

open Sys2Proof.Safety

variable {c : Cfg} {o : Observation}

/-! ### One word -/

theorem observeWord_command (w : Word) : observeWord c o (c.dcCmd, w) = { o with idx := some (lowByte w) } :=
  if_pos rfl

/-- A data word is no command, whatever the levels are (30_encoding.md R73). -/
theorem dcData_ne_dcCmd (c : Cfg) : dcData c ≠ c.dcCmd := Bool.not_ne_self c.dcCmd

theorem observeWord_ram (w : Word) (h : o.idx = some c.regRam) :
    observeWord c o (dcData c, w) = { o with gram := o.gram ++ [w] } := by
  simp only [observeWord, if_neg (dcData_ne_dcCmd c), h, if_true]

theorem observeWord_reg {a : Byte} (w : Word) (h : o.idx = some a) (ha : a ≠ c.regRam) :
    observeWord c o (dcData c, w) = { o with regs := regSet a.toNat w o.regs } := by
  simp only [observeWord, if_neg (dcData_ne_dcCmd c), h, if_neg ha]

/-! ### A burst of words at one DC level -/

/-- Data words with the RAM register selected are pixels, in order. -/
theorem observe_pixels (ws : List Word) (h : o.idx = some c.regRam) :
    (ws.map fun w => (dcData c, w)).foldl (observeWord c) o = { o with gram := o.gram ++ ws } := by
  induction ws generalizing o with
  | nil => simp
  | cons w ws ih =>
    rw [List.map_cons, List.foldl_cons, observeWord_ram w h]
    refine (ih (o := { o with gram := o.gram ++ [w] }) h).trans ?_
    rw [List.append_assoc, List.singleton_append]

/-- Command words select registers, and the last selection stands. -/
theorem observe_commands (ws : List Word) :
    (ws.map fun w => (c.dcCmd, w)).foldl (observeWord c) o = { o with idx := (ws.getLast?.map lowByte).or o.idx } := by
  induction ws generalizing o with
  | nil => rfl
  | cons w ws ih =>
    rw [List.map_cons, List.foldl_cons, observeWord_command, ih, List.getLast?_cons]
    cases ws.getLast? <;> rfl

/-! ### A register write -/

theorem observe_select (a : Byte) : (regWords c (a, none)).foldl (observeWord c) o = { o with idx := some a } := by
  refine (observeWord_command _).trans ?_
  rw [lowByte_addrWord]

/-- A register write to another register than RAM leaves its value there. -/
theorem observe_regWrite {a : Byte} (v : Word) (ha : a ≠ c.regRam) :
    (regWords c (a, some v)).foldl (observeWord c) o = { o with idx := some a, regs := regSet a.toNat v o.regs } := by
  change observeWord c ((regWords c (a, none)).foldl (observeWord c) o) (dcData c, v) = _
  rw [observe_select, observeWord_reg v rfl ha]

/-- The window's words leave the counters in REG_X and REG_Y and select the RAM register. -/
theorem observe_window (x y : Word) (hx : c.regX ≠ c.regRam) (hy : c.regY ≠ c.regRam) :
    (windowWords c x y).foldl (observeWord c) o =
      { o with idx := some c.regRam, regs := regSet c.regY.toNat y (regSet c.regX.toNat x o.regs) } := by
  rw [windowWords, List.foldl_append, List.foldl_append, observe_regWrite x hx, observe_regWrite y hy, observe_select]

end Sys2Proof.Machine
end

section
/-! WRITE on a GPIO transport (41_bus_writer.md R110, 20_memory.md R55): its words, and what they do to every observation. -/

namespace Sys2Proof.Machine

open Sys2Proof.Safety

variable {s : State} {payload : List Byte}

/-- An even WRITE sends the buffer's words and ends with OK. -/
theorem exec_write_even (hr : s.phase = .ready) (ht : s.cfg.transport = .gpio) (he : payload.length % 2 = 0) :
    exec (.write payload) s = .next ((busWords (bufferWords s.cfg.bufOrder payload) s).setStatus .ok) := by
  change whenReady (writeBody payload) s = _
  rw [whenReady_ready hr, writeBody, if_neg (by simp [ht]), if_neg (by simp [he]), bufWords_eq]
  rfl

@[simp] theorem busWords_cfg (ws : List Word) (s : State) : (busWords ws s).cfg = s.cfg :=
  (busReach_onlyBus (busWords_busReach ws s)).cfg

/-- Words sent with DC at a known level go on from every observation of the trace before them. -/
theorem observes_busWords {b : Bool} (ws : List Word) (h : SendsExactly s) (hdc : s.dc = levelOf b) (o' : Observation) :
    Observes s.cfg (busWords ws s).trace o' ↔
      ∃ o, Observes s.cfg s.trace o ∧ o' = (ws.map fun w => (b, w)).foldl (observeWord s.cfg) o :=
  observes_append (words_busWords ws h hdc) o'

end Sys2Proof.Machine
end

section

open Sys2Proof Sys2Proof.Machine Sys2Proof.Safety

/-- Settles O33: the five words of the command go on from every earlier observation, and they set X, set Y and select RAM. -/
theorem setAddrWinObserved : Obligations.SetAddrWinObserved := by
  intro xs ys xe ye s t o hready hpanel hcache hwhole hexact hxy hx hy hexec hobs
  rw [exec_setAddrWin xs ys xe ye hready hpanel] at hexec
  obtain rfl := Host.Outcome.next.inj hexec
  rw [State.setStatus_cfg, State.setStatus_trace, sendWindow_cfg,
    observes_append (words_sendWindow _ _ ⟨hcache, hexact, fun _ => hwhole⟩)] at hobs
  obtain ⟨o, -, rfl⟩ := hobs
  have hne : s.cfg.regX.toNat ≠ s.cfg.regY.toNat := fun e => hxy (BitVec.eq_of_toNat_eq e)
  rw [observe_window _ _ hx hy]
  refine ⟨rfl, ?_, ?_⟩
  · rw [regGet_regSet, if_neg hne, regGet_regSet, if_pos rfl]
  · rw [regGet_regSet, if_pos rfl]

/-- Settles O38: the buffer's words all carry the level DC has, so with RAM selected they are pixels, or else register
selections. -/
theorem pixelBurstGoesWhereDcPoints : Obligations.PixelBurstGoesWhereDcPoints := by
  intro payload s t hready hgpio heven hcache hexact hexec
  rw [exec_write_even hready hgpio heven] at hexec
  obtain rfl := Host.Outcome.next.inj hexec
  have hsends : SendsExactly s := ⟨hcache, hexact, fun hbyte => by simp [hgpio] at hbyte⟩
  rw [State.setStatus_cfg, State.setStatus_trace, busWords_cfg]
  refine ⟨fun hdc hram o' => ?_, fun hdc o' => ?_⟩
  · rw [observes_busWords _ hsends hdc]
    refine exists_congr fun o => and_congr_right fun ho => ?_
    rw [observe_pixels _ (hram o ho)]
  · simp only [observes_busWords _ hsends hdc, observe_commands]
    rfl

end

section
/-! A command's descriptor as header and operands (30_encoding.md R77 to R80), read back by the decoder; from the two round trips
it follows that no descriptor begins with another one. -/

namespace Sys2Proof

open Sys2Proof.Laws

/-! ### Header and operands of a command -/

/-- The address field of a command's header: WRITE_REG's address, and 0 for the others (R78). -/
def addrField : Instr → Byte
  | .writeRegA a => a
  | .writeRegAV a _ => a
  | _ => 0

/-- The descriptor bytes after the header (R79). -/
def operandBytes : Instr → List Byte
  | .setAddrWin xs ys xe ye => wordBytes xs ++ wordBytes ys ++ wordBytes xe ++ wordBytes ye
  | .writeRegAV _ v => wordBytes v
  | .write p =>
    wordBytes ((BitVec.ofNat 32 p.length).extractLsb' 16 16) ++ wordBytes ((BitVec.ofNat 32 p.length).extractLsb' 0 16) ++ p
  | _ => []

theorem encode_eq_header_operands (i : Instr) :
    encode i = wordBytes (rowHeader (rowOf i) (addrField i)) ++ operandBytes i := by
  cases i <;> rfl

/-- Each row's header is legal and names the row. -/
@[simp] theorem headerKind_rowHeader (k : HeaderKind) (a : Byte) : headerKind (rowHeader k a) = some k := by
  cases k
  case writeRegA => exact headerKind_writeRegA a
  case writeRegAV => exact headerKind_writeRegAV a
  all_goals simp only [rowHeader]; decide

@[simp] theorem headerAddr_rowHeader (i : Instr) : headerAddr (rowHeader (rowOf i) (addrField i)) = addrField i := by
  cases i <;> exact headerAddr_headerWord _ _ _

/-! ### The two round trips -/

theorem decodePayload_append (p rest : List Byte) : decodePayload p.length (p ++ rest) = .instr (.write p) rest := by
  simp [decodePayload]

/-- The decoder reads back the operands it was sent, and no more. -/
theorem decodeOperands_operandBytes {i : Instr} (hwf : i.wf = true) (rest : List Byte) :
    decodeOperands (rowOf i) (addrField i) (operandBytes i ++ rest) = .instr i rest := by
  cases i with
  | setAddrWin xs ys xe ye => simp [operandBytes, wordBytes, rowOf, decodeOperands]
  | writeRegAV a v => simp [operandBytes, wordBytes, rowOf, addrField, decodeOperands]
  | write p =>
    have hlen : p.length < 2 ^ 32 := of_decide_eq_true hwf
    simp only [operandBytes, wordBytes, rowOf, List.cons_append, List.nil_append, decodeOperands, lenOfBytes_encoded hlen,
      decodePayload_append]
  | verifyGpios => rfl
  | initDisplay => rfl
  | writeRegA a => rfl
  | hostDcCmd => rfl
  | hostDcData => rfl

theorem decode_encode {i : Instr} (hwf : i.wf = true) (rest : List Byte) : decode (encode i ++ rest) = .instr i rest := by
  rw [encode_eq_header_operands, List.append_assoc, decode_header (headerKind_rowHeader _ _), headerAddr_rowHeader,
    decodeOperands_operandBytes hwf]

/-- A payload that was read has its length in the length words, and its bytes stand in front of the rest (R79). -/
theorem decodePayload_instr {b3 b2 b1 b0 : Byte} {bs rest : List Byte} {i : Instr}
    (h : decodePayload (lenOfBytes b3 b2 b1 b0) bs = .instr i rest) :
    ∃ p, i = .write p ∧ p.length = lenOfBytes b3 b2 b1 b0 ∧ bs = p ++ rest := by
  unfold decodePayload at h
  split at h
  · cases h
  · next hlen =>
    cases h
    exact ⟨_, rfl, List.length_take_of_le (Nat.le_of_not_lt hlen), (List.take_append_drop _ bs).symm⟩

/-- Operands that decode to a command are that command's, under the header of its own row. -/
theorem decodeOperands_instr {k : HeaderKind} {a : Byte} {ops rest : List Byte} {i : Instr}
    (h : decodeOperands k a ops = .instr i rest) :
    i.wf = true ∧ rowHeader k a = rowHeader (rowOf i) (addrField i) ∧ ops = operandBytes i ++ rest := by
  cases k
  case write =>
    match ops, h with
    | b3 :: b2 :: b1 :: b0 :: bs, h =>
      obtain ⟨p, rfl, hlen, rfl⟩ := decodePayload_instr h
      obtain ⟨hhi, hlo⟩ := lenOfBytes_words b3 b2 b1 b0
      refine ⟨decide_eq_true ?_, rfl, ?_⟩
      · rw [hlen]
        exact BitVec.isLt _
      · simp only [operandBytes, hlen, hhi, hlo, wordBytes_beWord, List.cons_append, List.nil_append]
  case setAddrWin =>
    match ops, h with
    | _ :: _ :: _ :: _ :: _ :: _ :: _ :: _ :: _, rfl => exact ⟨rfl, rfl, by simp [operandBytes]⟩
  case writeRegAV =>
    match ops, h with
    | _ :: _ :: _, rfl => exact ⟨rfl, rfl, by simp [operandBytes]⟩
  all_goals
    cases h
    exact ⟨rfl, rfl, rfl⟩

theorem eq_encode_of_decode {bs rest : List Byte} {i : Instr} (h : decode bs = .instr i rest) :
    i.wf = true ∧ bs = encode i ++ rest := by
  obtain ⟨hd, k, ops, rfl, hkind, hops⟩ := decode_instr h
  obtain ⟨hwf, hheader, rfl⟩ := decodeOperands_instr hops
  refine ⟨hwf, ?_⟩
  rw [encode_eq_header_operands, ← hheader, ← eq_rowHeader hkind, List.append_assoc]

/-- Only the empty stream has no byte left. -/
theorem eq_nil_of_decode_empty {bs : List Byte} (h : decode bs = .empty) : bs = [] := by
  match bs, h with
  | [], _ => rfl
  | hi :: lo :: bs, h =>
    simp only [decode] at h
    unfold decodeOperands decodePayload at h
    repeat' split at h
    all_goals cases h

/-- An illegal header stays illegal whatever follows. -/
theorem decode_append_illegal {p : List Byte} {h : Word} {rest : List Byte} (hd : decode p = .illegal h rest)
    (q : List Byte) : decode (p ++ q) = .illegal h (rest ++ q) := by
  match p, hd with
  | hi :: lo :: bs, hd =>
    obtain ⟨hnone, rfl, rfl⟩ := (decode_illegal_iff hi lo bs h rest).1 hd
    exact (decode_illegal_iff hi lo _ _ _).2 ⟨hnone, rfl, rfl⟩

/-- Bytes cut from the end of a descriptor leave no whole one (R82): with the cut bytes put back, a command or an illegal header
read from what is left would be a second reading of the same stream. -/
theorem decode_truncated_of_cut {i : Instr} {p q : List Byte} (hwf : i.wf = true) (he : encode i = p ++ q) (hp : p ≠ [])
    (hq : q ≠ []) : decode p = .truncated := by
  have hwhole : decode (p ++ q) = .instr i [] := by
    rw [← he, ← List.append_nil (encode i), decode_encode hwf]
  cases hd : decode p with
  | truncated => rfl
  | empty => exact absurd (eq_nil_of_decode_empty hd) hp
  | illegal h rest => simp [decode_append_illegal hd] at hwhole
  | instr j rest =>
    obtain ⟨hj, rfl⟩ := eq_encode_of_decode hd
    simp [List.append_assoc, decode_encode hj, hq] at hwhole

end Sys2Proof
end

section
/-! Which headers are legal (30_encoding.md R77, R78, R81), said of the header's fields. -/

namespace Sys2Proof

section fields

variable (op : BitVec 4) (v : BitVec 1) (a : Byte)

@[simp] theorem headerOp_headerWord : headerOp (headerWord op v a) = op := by
  apply BitVec.eq_of_getLsbD_eq
  intro i hi
  simp only [headerOp, headerWord, BitVec.getLsbD_append, BitVec.getLsbD_extractLsb']
  interval_cases i <;> simp

@[simp] theorem headerRsv_headerWord : headerRsv (headerWord op v a) = 0 := by
  apply BitVec.eq_of_getLsbD_eq
  intro i hi
  simp only [headerRsv, headerWord, BitVec.getLsbD_append, BitVec.getLsbD_extractLsb']
  interval_cases i <;> simp

@[simp] theorem headerV_headerWord : headerV (headerWord op v a) = v.getLsbD 0 := by
  simp only [headerV, headerWord, BitVec.getLsbD_append]
  simp

end fields

/-- A header with RSV 000 is put together from its other fields (R77). -/
theorem headerWord_fields {h : Word} (hr : headerRsv h = 0) :
    headerWord (headerOp h) (BitVec.ofBool (headerV h)) (headerAddr h) = h := by
  rw [headerWord, ← hr]
  apply BitVec.eq_of_getLsbD_eq
  intro i hi
  simp only [headerOp, headerRsv, headerV, headerAddr, lowByte, BitVec.getLsbD_append, BitVec.getLsbD_extractLsb']
  interval_cases i <;> simp

/-- With address 0, such an OP and V make up a row of the opcode map. -/
theorem headerKind_isSome_of_op : ∀ (op : BitVec 4) (v : BitVec 1), op ≠ 0 → op.toNat < 7 → (v = 1 → op = 4 ∨ op = 6) →
    (headerKind (headerWord op v 0)).isSome = true := by decide

/-- The legal headers, field by field (R81): each row of the map has such fields, and such fields make up a row. -/
theorem headerKind_isSome_iff (h : Word) : (headerKind h).isSome = true ↔
    headerOp h ≠ 0 ∧ (headerOp h).toNat < 7 ∧ headerRsv h = 0 ∧ (headerV h = true → headerOp h = 4 ∨ headerOp h = 6) ∧
      (headerAddr h ≠ 0 → headerOp h = 4) := by
  constructor
  · intro hs
    obtain ⟨k, hk⟩ := Option.isSome_iff_exists.1 hs
    rw [eq_rowHeader hk]
    cases k <;> simp [rowHeader]
  · rintro ⟨hne, hlt, hrsv, hv, ha⟩
    rw [← headerWord_fields hrsv]
    generalize headerOp h = op at *
    generalize headerV h = v at *
    generalize headerAddr h = a at *
    by_cases hop : op = 4
    · subst hop
      cases v
      · exact Option.isSome_of_eq_some (headerKind_writeRegA a)
      · exact Option.isSome_of_eq_some (headerKind_writeRegAV a)
    · obtain rfl : a = 0 := not_not.1 (mt ha hop)
      refine headerKind_isSome_of_op op _ hne hlt fun h1 => hv ?_
      cases v
      · cases h1
      · rfl

end Sys2Proof
end

section
/-! What a step does where the stream holds no whole legal descriptor (60_exceptions.md R169 steps 2 and 3). -/

namespace Sys2Proof.Machine

open Sys2Proof.Safety

variable {s : State}

theorem step_illegal (hc : CanStep s) {h : Word} {rest : List Byte} (hd : decode s.stream = .illegal h rest) :
    step s = .next { s with stream := rest, status := .illegalCommand } := by
  rw [step, if_neg (by simp [hc.1]), if_neg (by simp [canStep_raised hc]), hd]
  rfl

theorem step_truncated (hc : CanStep s) (hd : decode s.stream = .truncated) :
    step s = .next { s with faults := ⟨none, some s.stream⟩, stream := [] } := by
  rw [step, if_neg (by simp [hc.1]), if_neg (by simp [canStep_raised hc]), hd]
  simp only [raiseTruncated, hc.2]
  rfl

end Sys2Proof.Machine
end

section
/-! The DC writes of register writes (30_encoding.md R70, R71; 40_register_protocol.md R90): one for each phase, none for a
word. -/

namespace Sys2Proof.Machine

open Sys2Proof.Safety

variable {s : State}

theorem dcWrites_latchedEvents (w : Word) (s : State) :
    dcWrites ((latchedEvents s w).map fun p => .pin p.1 p.2) = [] := by
  refine List.filterMap_eq_nil_iff.2 fun e he => ?_
  obtain ⟨⟨p, b⟩, hp, rfl⟩ := List.mem_map.1 he
  have hrole := latchedEvents_roles s w _ hp
  cases p with
  | dc => cases hrole
  | _ => rfl

/-- The Bus Writer adds no DC write (10_state.md R23). -/
theorem dcWrites_busWord (w : Word) (s : State) : dcWrites (busWord w s).trace = dcWrites s.trace := by
  rcases busWord_trace_cases w s with ⟨-, ht⟩ | ⟨-, ht⟩ | ⟨-, ht⟩
  · rw [ht, dcWrites_append, dcWrites_strobe, List.append_nil]
  · rw [ht, dcWrites_append, dcWrites_append, dcWrites_latchedEvents]
    simp [dcWrites]
  · rw [ht, dcWrites_append]
    exact List.append_nil _

/-- One phase of a register write adds its DC write. -/
theorem dcWrites_phase (b : Bool) (w : Word) (s : State) :
    dcWrites (busWord w (pinWrite .dc b s)).trace = dcWrites s.trace ++ [b] := by
  rw [dcWrites_busWord, pinWrite_trace, dcWrites_append]
  rfl

/-- A register write sets DC once for each of its words (R90). -/
theorem dcWrites_regWrite (a : Byte) (v : Option Word) (s : State) :
    dcWrites (regWrite a v s).trace = dcWrites s.trace ++ (regWords s.cfg (a, v)).map (·.1) := by
  have haddr : dcWrites (regWrite a none s).trace = dcWrites s.trace ++ [s.cfg.dcCmd] := dcWrites_phase _ _ s
  cases v with
  | none => exact haddr
  | some v =>
    rw [regWrite_some, dcWrites_phase, haddr, List.append_assoc]
    rfl

theorem regWrite_none_dc (a : Byte) (s : State) : (regWrite a none s).dc = levelOf s.cfg.dcCmd :=
  busWord_dc _ _

theorem regWrite_some_dc (a : Byte) (v : Word) (s : State) : (regWrite a (some v) s).dc = levelOf (dcData s.cfg) := by
  rw [regWrite_some]
  exact busWord_dc _ _

theorem exec_writeRegA (a : Byte) (hr : s.phase = .ready) :
    exec (.writeRegA a) s = .next ((regWrite a none s).setStatus .ok) := by
  change execWriteRegA a s = _
  rw [execWriteRegA, whenReady_ready hr]
  rfl

theorem exec_writeRegAV (a : Byte) (v : Word) (hr : s.phase = .ready) :
    exec (.writeRegAV a v) s = .next ((regWrite a (some v) s).setStatus .ok) := by
  change execWriteRegAV a v s = _
  rw [execWriteRegAV, whenReady_ready hr]
  rfl

end Sys2Proof.Machine
end

section

open Sys2Proof Sys2Proof.Machine Sys2Proof.Safety

/-- Settles O1, row by row. -/
theorem decodesKnownWords : Obligations.DecodesKnownWords := by
  refine ⟨?_, ?_, ?_, ?_, ?_, ?_, ?_, ?_⟩ <;> decide

/-- Settles O2: the header names the row, and the row's operands are read back. -/
theorem decodeOfEncode : Obligations.DecodeOfEncode := fun _ rest hwf => decode_encode hwf rest

/-- Settles O3: a legal header is its row's only header word, and the operands are those of the command they decode to. -/
theorem decodeReadsOnlyEncodings : Obligations.DecodeReadsOnlyEncodings := fun _ _ _ h => eq_encode_of_decode h

/-- Settles O4, by the fields of a legal header. -/
theorem illegalHeaderEndsCommand : Obligations.IllegalHeaderEndsCommand := by
  refine ⟨fun hi lo rest => ?_, fun hi lo rest h rest' s hc hs hd => ?_⟩
  · have hnone : (∃ h, decode (hi :: lo :: rest) = .illegal h rest) ↔ ¬ (headerKind (hi ++ lo)).isSome = true := by
      simp [decode_illegal_iff, beWord]
    rw [hnone, headerKind_isSome_iff]
    simp only [not_and_or, Classical.not_imp, not_or, not_not, not_lt, ne_eq]
  · have hrest : rest' = rest := ((decode_illegal_iff hi lo rest h rest').1 (hs ▸ hd)).2.2
    subst hrest
    exact ⟨rfl, step_illegal hc hd⟩

/-- Settles O5: a cut descriptor decodes as truncated, since no encoding begins with a shorter one. -/
theorem truncatedDescriptorFaults : Obligations.TruncatedDescriptorFaults := by
  rintro i p q s hwf he hp hq hc rfl
  exact ⟨_, step_truncated hc (decode_truncated_of_cut hwf he hp hq), rfl, rfl, rfl⟩

/-- Settles O27: a register write is one phase or two, each a DC write and a word that the trace shows exactly. -/
theorem registerWritesShowOnBus : Obligations.RegisterWritesShowOnBus := by
  intro s hready hcache hwhole hexact
  have hsends : SendsExactly s := ⟨hcache, hexact, fun _ => hwhole⟩
  refine ⟨fun a => ⟨_, exec_writeRegA a hready, ?_⟩, fun a v => ⟨_, exec_writeRegAV a v hready, ?_⟩⟩ <;>
    rw [State.setStatus_cfg, State.setStatus_trace, State.setStatus_dc, regWrite_cfg, words_regWrite _ _ hsends,
      dcWrites_regWrite]
  · exact ⟨rfl, rfl, regWrite_none_dc a s⟩
  · exact ⟨rfl, rfl, regWrite_some_dc a v s⟩

end

section
/-! Register writes in closed form (40_register_protocol.md R90), and what that form is on the byte transport (R93). -/

namespace Sys2Proof.Machine

open Sys2Proof.Safety

variable {s : State}

/-- Each phase of a register write is one DC write and one word step, and both have a closed form. -/
theorem regWrite_eq_afterReg (a : Byte) (v : Option Word) (s : State) : regWrite a v s = afterReg a v s := by
  have haddr : regWrite a none s = afterReg a none s := busWord_eq_afterWord _ _
  cases v with
  | none => exact haddr
  | some v =>
    rw [regWrite_some, haddr, busWord_eq_afterWord]
    rfl

/-- The high byte of an address word is zero (30_encoding.md R70). -/
@[simp] theorem highByte_addrWord (a : Byte) : highByte (a.setWidth 16) = 0x00 := by
  ext i hi
  simp [highByte]

/-- One phase of a register write on the byte transport: DC to its level, then the word's two bytes at that level. -/
theorem phase_byte (b : Bool) (w : Word) (h : s.cfg.transport = .byte) :
    busWord w (pinWrite .dc b s) = { s with
      dc := levelOf b
      trace := s.trace ++ [.pin .dc b, .byteOut (levelOf b) (highByte w), .byteOut (levelOf b) (lowByte w)] } := by
  have hv : cfgVariant (afterDc b s).cfg = .bytew := cfgVariant_byte h
  simp only [pinWrite_dc_eq, busWord_eq_afterWord, afterWord, hv]
  simp [afterDc, highByte, lowByte]

/-- The command phase on the byte transport sends a zero byte and the address (R93). -/
theorem regWrite_none_byte (a : Byte) (h : s.cfg.transport = .byte) :
    regWrite a none s = { s with
      dc := levelOf s.cfg.dcCmd
      trace := s.trace ++
        [.pin .dc s.cfg.dcCmd, .byteOut (levelOf s.cfg.dcCmd) 0x00, .byteOut (levelOf s.cfg.dcCmd) a] } := by
  have haddr : regWrite a none s = busWord (a.setWidth 16) (pinWrite .dc s.cfg.dcCmd s) := rfl
  rw [haddr, phase_byte _ _ h, highByte_addrWord, lowByte_addrWord]

end Sys2Proof.Machine
end

section

open Sys2Proof Sys2Proof.Machine Sys2Proof.Safety

/-- Settles O24, by the closed form of a register write without a value. -/
theorem writeRegASendsAddress : Obligations.WriteRegASendsAddress := by
  intro a s hready
  rw [exec_writeRegA a hready, regWrite_eq_afterReg]
  rfl

/-- Settles O25, by the closed form of a register write with a value. -/
theorem writeRegAVSendsAddressAndValue : Obligations.WriteRegAVSendsAddressAndValue := by
  intro a v s hready
  rw [exec_writeRegAV a v hready, regWrite_eq_afterReg]
  rfl

/-- Settles O26: the data phase's bytes follow those of the command phase. -/
theorem regWriteOnByteTransport : Obligations.RegWriteOnByteTransport := by
  intro a v s hbyte
  refine ⟨regWrite_none_byte a hbyte, ?_⟩
  have haddr : (regWrite a none s).cfg.transport = .byte := by rwa [regWrite_cfg]
  rw [regWrite_some, phase_byte _ v haddr, regWrite_none_byte a hbyte]
  simp only [List.append_assoc, List.cons_append, List.nil_append]
  rfl

end

section
/-! The capture of a parallel word step (41_bus_writer.md R102, R107): it is the data lines as the step leaves them, and each of
them holds the word's bit, or is still undriven where that bit is 0. -/

namespace Sys2Proof.Machine

open Sys2Proof.Safety

variable {s : State}

/-- The pin writes of a 16-line word step: WR to `WR_BEGIN`, the lines, WR to `WR_LATCH` (R101, R106). -/
def strobePins (c : Cfg) (is : List (Fin 16)) (w : Word) : List (PinRole × Bool) :=
  (.wr, c.wrBegin) :: lineWrites is w ++ [(.wr, wrLatch c)]

theorem strobeEvents_eq_pins_capture (c : Cfg) (is : List (Fin 16)) (w : Word) (dc : Level) (db : Vector Level 16) :
    strobeEvents c is w dc db =
      (strobePins c is w).map (fun p => .pin p.1 p.2) ++ [.capture dc (drivenLevels is w db)] := by
  simp [strobeEvents, strobePins, lineWrites]

/-- A parallel word step ends with its one capture, of the lines as they then stand (R102, R106). -/
theorem busWord_trace_capture (w : Word)
    (hv : cfgVariant s.cfg = .opt16 ∨ cfgVariant s.cfg = .slow16 ∨ cfgVariant s.cfg = .naive16) :
    ∃ evs, (busWord w s).trace = s.trace ++ evs ++ [.capture s.dc (busWord w s).db] ∧ captureWords evs = [] := by
  have hdb : (busWord w s).db = drivenLevels (drivenLines s w) w s.db := by
    rw [busWord_eq_afterWord]
    rcases hv with hv | hv | hv <;> simp only [afterWord, hv, afterStrobe]
  have htrace : (busWord w s).trace = s.trace ++ strobeEvents s.cfg (drivenLines s w) w s.dc s.db := by
    rcases busWord_trace_cases w s with ⟨-, ht⟩ | ⟨hother, -⟩ | ⟨hother, -⟩
    · exact ht
    all_goals simp [hother] at hv
  refine ⟨(strobePins s.cfg (drivenLines s w) w).map fun p => .pin p.1 p.2, ?_, captureWords_pins Prod.fst Prod.snd _⟩
  rw [htrace, hdb, strobeEvents_eq_pins_capture, List.append_assoc]

/-- A NAIVE16 word drives every line to its bit (R106). -/
theorem busWord_db_naive (w : Word) (i : Fin 16) (hv : cfgVariant s.cfg = .naive16) :
    (busWord w s).db[i] = levelOf (w.getLsbD i) := by
  rw [busWord_eq_afterWord]
  simp only [afterWord, hv, afterStrobe, drivenLevels_get, drivenLines, List.mem_finRange, if_true]

/-- After a parallel word step every line holds the word's bit, as far as the cache may rely on it (R107). -/
theorem busWord_lineHolds_parallel (w : Word) (i : Fin 16)
    (hv : cfgVariant s.cfg = .opt16 ∨ cfgVariant s.cfg = .slow16 ∨ cfgVariant s.cfg = .naive16) (h : CacheMatchesLines s) :
    LineHolds (busWord w s) i (w.getLsbD i) := by
  rcases hv with hv | hv | hv
  · exact busWord_lineHolds w i (.inl hv) h
  · exact busWord_lineHolds w i (.inr hv) h
  · exact .inl (busWord_db_naive w i hv)

/-- A pin no event has driven is at `X` (00_scope.md R12). -/
theorem tracedLevel_of_neverDriven {p : PinRole} {tr : List Event} (h : NeverDriven p tr) : tracedLevel p tr = .x := by
  induction tr using List.reverseRecOn with
  | nil => rfl
  | append_singleton tr e ih =>
    obtain ⟨htr, he⟩ := neverDriven_append.1 h
    rw [tracedLevel_append]
    cases e with
    | pin q b =>
      have hne : q ≠ p := fun hq => he b (by simp [hq])
      simp only [if_neg hne, ih htr]
    | capture _ _ => exact ih htr
    | byteOut _ _ => exact ih htr

theorem levelOf_ne_x (b : Bool) : levelOf b ≠ .x := by cases b <;> decide

end Sys2Proof.Machine
end

section
/-! The shape of a LATCHED8 word, whatever the open protocol is (41_bus_writer.md R108, 10_state.md R22, 70_reset_and_hazards.md
R193), read off the shape `latchedEvents` is held to. -/

namespace Sys2Proof.Machine

open Sys2Proof.Safety

/-- The roles of the latched protocol (R108). -/
theorem latchedRole_iff (p : PinRole) :
    latchedRole p = true ↔ p = .wr ∨ p = .latch ∨ ∃ i : Fin 16, i.val < 8 ∧ p = .db i := by
  cases p <;> simp [latchedRole]

/-- WR is at `WR_BEGIN` when the last event of the word, its `WR_LATCH` write, comes (R22, R108). -/
theorem latchedEvents_ends_with_latch (s : State) (w : Word) :
    ∃ front, latchedEvents s w = front ++ [(.wr, wrLatch s.cfg)] ∧ levelAfter .wr s.wr front = levelOf s.cfg.wrBegin := by
  obtain ⟨-, hwr, -, hlast⟩ := latchedEvents_shape s w
  obtain ⟨front, hfront⟩ := List.getLast?_eq_some_iff.1 hlast
  have hbegin : front.filter (fun p => p.1 == .wr) = [(.wr, s.cfg.wrBegin)] := by
    rw [hfront, List.filter_append] at hwr
    exact List.append_cancel_right (cs := [(PinRole.wr, s.cfg.wrBegin)]) hwr
  exact ⟨front, hfront, by simp [levelAfter, hbegin]⟩

/-- The `WR_BEGIN` write comes before every data line write (R193). -/
theorem latchedEvents_begin_before_lines {s : State} {w : Word} {front back : List (PinRole × Bool)} {b : Bool} {i : Fin 16}
    (h : latchedEvents s w = front ++ (.db i, b) :: back) : (.wr, s.cfg.wrBegin) ∈ front := by
  obtain ⟨-, -, hfirst, -⟩ := latchedEvents_shape s w
  rw [h, List.find?_append] at hfirst
  cases hf : front.find? (fun p => p.1 != .latch) with
  | none => simp [hf] at hfirst
  | some p =>
    have hp : p = (.wr, s.cfg.wrBegin) := by simpa [hf] using hfirst
    exact hp ▸ List.mem_of_find?_eq_some hf

/-- From any level, two writes to WR make one transition from `WR_BEGIN` to `WR_LATCH`: the levels differ (30_encoding.md R74). -/
theorem count_strobe_transition (c : Cfg) (l : Level) :
    [(l, levelOf c.wrBegin), (levelOf c.wrBegin, levelOf (wrLatch c))].count (levelOf c.wrBegin, levelOf (wrLatch c)) = 1 := by
  have hne : levelOf c.wrBegin ≠ levelOf (wrLatch c) := by
    cases h : c.wrBegin <;> simp [wrLatch, h, levelOf]
  simp [hne]

end Sys2Proof.Machine
end

section
/-! The slow flag (41_bus_writer.md R105): in the differential variants no command reads it, so setting it commutes with every
command. -/

namespace Sys2Proof.Machine

open Sys2Proof.Safety

/-- The state with the slow flag set to `b`. -/
def State.withSlow (b : Bool) (s : State) : State := { s with cfg := { s.cfg with slow := b } }

/-- Change the next state an outcome answers. -/
def onNext (f : State → State) : Host.Outcome State Fault Refusal → Host.Outcome State Fault Refusal
  | .next t => .next (f t)
  | .fault r => .fault r
  | .refused r => .refused r

/-- The differential variants are those of a GPIO transport with neither the naive nor the latched flag (00_scope.md R9). -/
theorem usesCache_iff (c : Cfg) : UsesCache c ↔ c.transport = .gpio ∧ c.naive = false ∧ c.latched = false := by
  unfold UsesCache cfgVariant
  cases c.transport <;> cases c.naive <;> cases c.latched <;> cases c.slow <;> simp

section commute

variable (b : Bool) {s : State}

theorem usesCache_withSlow : UsesCache (s.withSlow b).cfg ↔ UsesCache s.cfg := by
  rw [usesCache_iff, usesCache_iff]
  rfl

/-! ### Over the bus -/

theorem busWord_withSlow (w : Word) (h : UsesCache s.cfg) : busWord w (s.withSlow b) = (busWord w s).withSlow b := by
  have h' := (usesCache_withSlow b).2 h
  have hlines : drivenLines (s.withSlow b) w = drivenLines s w := by
    rw [drivenLines_usesCache h', drivenLines_usesCache h]
    rfl
  rw [busWord_of_usesCache w _ h', busWord_of_usesCache w s h, hlines]
  rfl

theorem busWords_withSlow (ws : List Word) (h : UsesCache s.cfg) :
    busWords ws (s.withSlow b) = (busWords ws s).withSlow b := by
  induction ws generalizing s with
  | nil => rfl
  | cons w ws ih =>
    change busWords ws (busWord w (s.withSlow b)) = (busWords ws (busWord w s)).withSlow b
    rw [busWord_withSlow b w h, ih (by rwa [busWord_cfg])]

/-- One phase of a register write: DC, then the word. -/
theorem phase_withSlow (l : Bool) (w : Word) (h : UsesCache s.cfg) :
    busWord w (pinWrite .dc l (s.withSlow b)) = (busWord w (pinWrite .dc l s)).withSlow b :=
  busWord_withSlow b w (s := pinWrite .dc l s) h

theorem regWrite_withSlow (a : Byte) (v : Option Word) (h : UsesCache s.cfg) :
    regWrite a v (s.withSlow b) = (regWrite a v s).withSlow b := by
  have haddr : regWrite a none (s.withSlow b) = (regWrite a none s).withSlow b := phase_withSlow b _ _ h
  cases v with
  | none => exact haddr
  | some v =>
    rw [regWrite_some, regWrite_some, haddr]
    exact phase_withSlow b _ v (by rwa [regWrite_cfg])

theorem sendEntries_withSlow (es : List InitEntry) (h : UsesCache s.cfg) :
    sendEntries es (s.withSlow b) = (sendEntries es s).withSlow b := by
  induction es generalizing s with
  | nil => rfl
  | cons e es ih =>
    change sendEntries es (regWrite (entryWrite s.cfg e).1 (entryWrite s.cfg e).2 (s.withSlow b)) =
      (sendEntries es (regWrite (entryWrite s.cfg e).1 (entryWrite s.cfg e).2 s)).withSlow b
    rw [regWrite_withSlow b _ _ h, ih (by rwa [regWrite_cfg])]

/-- The register writes of SET_ADDR_WIN. -/
theorem sendWindow_withSlow (x y : Word) (h : UsesCache s.cfg) :
    sendWindow x y (s.withSlow b) = (sendWindow x y s).withSlow b := by
  unfold sendWindow
  rw [regWrite_withSlow b _ _ h, regWrite_withSlow b _ _ (by rwa [regWrite_cfg]),
    regWrite_withSlow b _ _ (by rwa [regWrite_cfg, regWrite_cfg])]
  rfl

/-! ### Commands -/

/-- The phase checks do not read the flag: a command commutes with setting it when its body does. -/
theorem whenReady_withSlow {body : State → Host.Outcome State Fault Refusal}
    (h : body (s.withSlow b) = onNext (State.withSlow b) (body s)) :
    whenReady body (s.withSlow b) = onNext (State.withSlow b) (whenReady body s) := by
  have hphase : (s.withSlow b).phase = s.phase := rfl
  simp only [whenReady, hphase]
  cases s.phase with
  | aborted => rfl
  | new => rfl
  | ready => exact h

/-- A command that only goes over the bus and ends with OK. -/
theorem whenReady_ok_withSlow {f : State → State} (h : f (s.withSlow b) = (f s).withSlow b) :
    whenReady (fun s => endWith .ok (f s)) (s.withSlow b) =
      onNext (State.withSlow b) (whenReady (fun s => endWith .ok (f s)) s) :=
  whenReady_withSlow b (congrArg (endWith .ok) h)

theorem writeBody_withSlow (payload : List Byte) (h : UsesCache s.cfg) :
    writeBody payload (s.withSlow b) = onNext (State.withSlow b) (writeBody payload s) := by
  have ht : s.cfg.transport ≠ .byte := by simp [((usesCache_iff _).1 h).1]
  have ht' : (s.withSlow b).cfg.transport ≠ .byte := ht
  rw [writeBody, writeBody, if_neg ht, if_neg ht']
  split
  · rfl
  · exact congrArg (endWith .ok) (busWords_withSlow b _ h)

theorem windowBody_withSlow (xs ys : Word) (h : UsesCache s.cfg) :
    windowBody xs ys (s.withSlow b) = onNext (State.withSlow b) (windowBody xs ys s) := by
  unfold windowBody
  split
  · change endWith .ok (sendWindow _ _ (s.withSlow b)) = endWith .ok ((sendWindow _ _ s).withSlow b)
    rw [sendWindow_withSlow b _ _ h]
    rfl
  · rfl

/-- The validator does not read the flag. -/
theorem execVerifyGpios_withSlow :
    execVerifyGpios (s.withSlow b) = onNext (State.withSlow b) (execVerifyGpios s) := by
  have hphase : (s.withSlow b).phase = s.phase := rfl
  have hvalid : validate (s.withSlow b).cfg (s.withSlow b).pins = validate s.cfg s.pins := rfl
  simp only [execVerifyGpios, hphase, hvalid]
  cases s.phase with
  | aborted => rfl
  | new => cases validate s.cfg s.pins <;> rfl
  | ready => rfl

/-- Every command of a differential variant commutes with setting the slow flag (R105). -/
theorem exec_withSlow (i : Instr) (h : UsesCache s.cfg) :
    exec i (s.withSlow b) = onNext (State.withSlow b) (exec i s) := by
  cases i with
  | verifyGpios => exact execVerifyGpios_withSlow b
  | initDisplay => exact whenReady_ok_withSlow b (sendEntries_withSlow b s.cfg.initSeq h)
  | setAddrWin xs ys _ _ => exact whenReady_withSlow b (windowBody_withSlow b xs ys h)
  | writeRegA a => exact whenReady_ok_withSlow b (regWrite_withSlow b a none h)
  | writeRegAV a v => exact whenReady_ok_withSlow b (regWrite_withSlow b a (some v) h)
  | write payload => exact whenReady_withSlow b (writeBody_withSlow b payload h)
  | hostDcCmd => exact whenReady_ok_withSlow b (f := fun s => pinWrite .dc s.cfg.dcCmd s) rfl
  | hostDcData => exact whenReady_ok_withSlow b (f := fun s => pinWrite .dc (dcData s.cfg) s) rfl

end commute

end Sys2Proof.Machine
end

section

open Sys2Proof Sys2Proof.Machine Sys2Proof.Safety

/-- Settles O17, variant by variant. -/
theorem busWordHasClosedForm : Obligations.BusWordHasClosedForm := busWord_eq_afterWord

/-- Settles O18: the step's events are those of its closed form, which re-drives the lines of R103. -/
theorem differentialWordDrivesChangedLines : Obligations.DifferentialWordDrivesChangedLines := by
  intro w s hcache
  refine ⟨strobeEvents s.cfg (drivenLines s w) w s.dc s.db, ?_, ?_, fun hvalid => ?_⟩
  · rw [busWord_of_usesCache w s hcache]
    rfl
  · rw [wrWrites_strobe]
    rfl
  have hlines : drivenLines s w = (List.finRange 16).filter fun i : Fin 16 => (w ^^^ s.prev).getLsbD i := by
    rw [drivenLines_usesCache hcache, if_neg (by simp [hvalid])]
  rw [lineEvents_strobe, hlines]
  refine ⟨rfl, fun heq => ?_, ?_⟩
  · simp [heq]
  · rw [List.length_map, ← List.countP_eq_length_filter, ← List.map_coe_finRange_eq_range, List.countP_map]
    rfl

/-- Settles O19: the capture is the lines after the step, and a line that does not hold the word's bit there is one the cache
relied on undriven. -/
theorem captureShowsTheWord : Obligations.CaptureShowsTheWord := by
  intro w s hv hcache hpins
  obtain ⟨evs, htrace, hevs⟩ := busWord_trace_capture w hv
  have holds (i : Fin 16) := busWord_lineHolds_parallel w i hv hcache
  refine ⟨evs, (busWord w s).db, htrace, hevs, fun hexact i => ?_, fun htrust i => ⟨fun hnever => ?_, fun hdriven => ?_⟩⟩
  · rcases hexact with hnaive | hforce
    · exact busWord_db_naive w i hnaive
    · refine (holds i).resolve_right fun ⟨_, htrust, _⟩ => ?_
      simp [hforce] at htrust
  · have hx : (busWord w s).db[i] = .x :=
      (busWord_pinsMatchTrace w hpins (.db i)).trans (tracedLevel_of_neverDriven hnever)
    rcases holds i with hbit | ⟨-, -, hbit, -⟩
    · exact absurd (hbit.symm.trans hx) (levelOf_ne_x _)
    · exact ⟨hx, hbit⟩
  · exact (holds i).resolve_right fun ⟨_, _, _, hnever⟩ => hdriven hnever

/-- Settles O20: the events are the protocol's, held to the rules' shape, and the levels are those of the closed form. -/
theorem latchedWordFollowsProtocolShape : Obligations.LatchedWordFollowsProtocolShape := by
  intro w s hv
  obtain ⟨hroles, hwr, -, -⟩ := latchedEvents_shape s w
  have hafter := busWord_eq_afterWord w s
  simp only [afterWord, hv] at hafter
  refine ⟨latchedEvents s w, ?_, fun p hp => (latchedRole_iff p.1).1 (hroles p hp), latchedEvents_ends_with_latch s w, hwr,
    fun _ _ _ _ => latchedEvents_begin_before_lines, ?_, ?_, ?_, ?_, ?_, ?_, busWord_dc w s,
    (busWord_unusedKept w s).upperLines hv⟩
  · rw [hafter]
    rfl
  · rw [hwr]
    exact count_strobe_transition s.cfg s.wr
  · intro i _
    rw [hafter]
    simp
  all_goals rw [hafter]

/-- Settles O21: setting the slow flag commutes with the command. -/
theorem slowVariantEqualsOptimized : Obligations.SlowVariantEqualsOptimized := by
  intro i s hgpio hnaive hlatched
  have hcache : UsesCache (s.withSlow false).cfg := (usesCache_iff _).2 ⟨hgpio, hnaive, hlatched⟩
  obtain ⟨t, ht⟩ := exec_next i (s.withSlow false)
  have hslow := exec_withSlow true i hcache
  rw [ht] at hslow
  exact ⟨t, ht, hslow⟩

/-- Settles O22: the words by index, each in closed form. -/
theorem writeSendsBufferWords : Obligations.WriteSendsBufferWords := by
  intro payload s hready hgpio heven
  rw [exec_write_even hready hgpio heven]
  simp only [busWords, busWord_eq_afterWord]
  rfl

/-- Settles O23, check by check in the order of R169: transport, odd length, no word to send. -/
theorem writeRejectionsAndZeroLength : Obligations.WriteRejectionsAndZeroLength := by
  intro payload s hready
  have hexec : exec (.write payload) s = writeBody payload s := whenReady_ready hready _
  refine ⟨fun hbyte => ?_, fun hgpio hodd => ?_, fun hgpio hzero => ?_⟩
  · rw [hexec, writeBody, if_pos hbyte, endWith_eq]
  · rw [hexec, writeBody, if_neg (by simp [hgpio]), if_pos hodd, endWith_eq]
  · obtain rfl := List.eq_nil_of_length_eq_zero hzero
    rw [exec_write_even hready hgpio rfl]
    rfl

end

section
/-! The axis mapping on unbounded integers (42_address_window.md R121, R124 to R126): its table, and the ranges of its values on
the panel. -/

namespace Sys2Proof.Machine

variable {c : Cfg} {xs ys : Int}

theorem axisMap_r0 (h : c.rot = .r0) (xs ys : Int) : axisMap c xs ys = (xs, ys) := by
  simp only [axisMap, rotParam, h, axisCells, axisValue]

theorem axisMap_r180 (h : c.rot = .r180) (xs ys : Int) : axisMap c xs ys = (240 - 1 - xs, 320 - 1 - ys) := by
  simp only [axisMap, rotParam, h, axisCells, axisValue, panelWidth, panelHeight, Nat.cast_ofNat]

theorem axisMap_r90 (h : c.rot = .r90) (xs ys : Int) : axisMap c xs ys = (320 - 1 - ys, xs) := by
  simp only [axisMap, rotParam, h, axisCells, axisValue, panelHeight, Nat.cast_ofNat]

theorem axisMap_r270 (h : c.rot = .r270) (xs ys : Int) : axisMap c xs ys = (ys, 240 - 1 - xs) := by
  simp only [axisMap, rotParam, h, axisCells, axisValue, panelWidth, Nat.cast_ofNat]

/-- The start point lies in [0,240)×[0,320), on unbounded integers (R124). -/
structure OnPanel (xs ys : Int) : Prop where
  xs_nonneg : 0 ≤ xs
  xs_lt : xs < 240
  ys_nonneg : 0 ≤ ys
  ys_lt : ys < 320

theorem axisMap_nonneg (h : OnPanel xs ys) : 0 ≤ (axisMap c xs ys).1 ∧ 0 ≤ (axisMap c xs ys).2 := by
  obtain ⟨hx, hx', hy, hy'⟩ := h
  cases hr : c.rot <;> simp only [axisMap_r0, axisMap_r90, axisMap_r180, axisMap_r270, hr] <;> omega

/-- Upright, X counts columns of the panel and Y its rows. -/
theorem axisMap_le_upright (hr : c.rot = .r0 ∨ c.rot = .r180) (h : OnPanel xs ys) :
    (axisMap c xs ys).1 ≤ 239 ∧ (axisMap c xs ys).2 ≤ 319 := by
  obtain ⟨hx, hx', hy, hy'⟩ := h
  rcases hr with hr | hr
  · simp only [axisMap_r0 hr]
    omega
  · simp only [axisMap_r180 hr]
    omega

/-- Turned by a quarter, X counts rows of the panel and Y its columns. -/
theorem axisMap_le_quarter (hr : c.rot = .r90 ∨ c.rot = .r270) (h : OnPanel xs ys) :
    (axisMap c xs ys).1 ≤ 319 ∧ (axisMap c xs ys).2 ≤ 239 := by
  obtain ⟨hx, hx', hy, hy'⟩ := h
  rcases hr with hr | hr
  · simp only [axisMap_r90 hr]
    omega
  · simp only [axisMap_r270 hr]
    omega

/-- Both counter values lie in [0, 319], whatever the rotation (R124). -/
theorem axisMap_le_319 (h : OnPanel xs ys) : (axisMap c xs ys).1 ≤ 319 ∧ (axisMap c xs ys).2 ≤ 319 := by
  have hturn : (c.rot = .r0 ∨ c.rot = .r180) ∨ (c.rot = .r90 ∨ c.rot = .r270) := by cases c.rot <;> simp
  rcases hturn with hr | hr
  · have hle := axisMap_le_upright hr h
    omega
  · have hle := axisMap_le_quarter hr h
    omega

/-- An integer of [0, 319] fits a 16-bit word unchanged. -/
theorem toNat_ofInt_of_le_319 {z : Int} (h0 : 0 ≤ z) (h1 : z ≤ 319) : ((BitVec.ofInt 16 z).toNat : Int) = z := by
  rw [BitVec.toNat_ofInt]
  omega

end Sys2Proof.Machine
end

section
/-! SET_ADDR_WIN on and off the panel (42_address_window.md R122 to R124): the closed form, the DC writes and the final DC of its
three register writes, and the fault that stops the block. -/

namespace Sys2Proof.Machine

open Sys2Proof.Safety

variable {s : State}

/-- The three register writes, each in its closed form. -/
theorem sendWindow_eq_afterReg (x y : Word) (s : State) :
    sendWindow x y s =
      afterReg s.cfg.regRam none (afterReg s.cfg.regY (some y) (afterReg s.cfg.regX (some x) s)) := by
  simp only [sendWindow, regWrite_eq_afterReg]

/-- One DC write for each of the window's words. -/
theorem dcWrites_sendWindow (x y : Word) (s : State) :
    dcWrites (sendWindow x y s).trace = dcWrites s.trace ++ (windowWords s.cfg x y).map (·.1) := by
  simp only [sendWindow, dcWrites_regWrite, regWrite_cfg, windowWords, List.map_append, List.append_assoc]

/-- The prime leaves DC at command. -/
theorem sendWindow_dc (x y : Word) (s : State) : (sendWindow x y s).dc = levelOf s.cfg.dcCmd := by
  rw [sendWindow, regWrite_none_dc, regWrite_cfg, regWrite_cfg]

/-- Off the panel SET_ADDR_WIN only raises `F_COORD` (R124). -/
theorem exec_setAddrWin_off_panel {xs ys : Word} (xe ye : Word) (hr : s.phase = .ready) (hp : ¬ InPanel xs ys) :
    exec (.setAddrWin xs ys xe ye) s = .next { s with faults := { s.faults with coord := some (xs, ys) } } := by
  change whenReady (windowBody xs ys) s = _
  rw [whenReady_ready hr, windowBody, if_neg (mt (coordsOk_iff xs ys).1 hp)]
  rfl

/-- No step follows a raised fault (60_exceptions.md R169 step 1). -/
theorem step_ne_next_of_raised (h : s.faults.raised = true) (u : State) : step s ≠ .next u := by
  rcases step_cases s with ⟨-, hs⟩ | ⟨-, -, hs⟩ | ⟨-, hf, -⟩
  · simp [hs]
  · simp [hs]
  · simp [h] at hf

end Sys2Proof.Machine
end

section

open Sys2Proof Sys2Proof.Machine Sys2Proof.Safety

/-- Settles O28: the table row by row, and from it the ranges, which a 16-bit word holds. -/
theorem axisMapFollowsTable : Obligations.AxisMapFollowsTable := by
  refine fun c xs ys => ⟨?_, fun hx hx' hy hy' => ?_⟩
  · cases hr : c.rot with
    | r0 => exact axisMap_r0 hr xs ys
    | r90 => exact axisMap_r90 hr xs ys
    | r180 => exact axisMap_r180 hr xs ys
    | r270 => exact axisMap_r270 hr xs ys
  · have hp : OnPanel xs ys := ⟨hx, hx', hy, hy'⟩
    obtain ⟨hX, hY⟩ := axisMap_nonneg (c := c) hp
    obtain ⟨hX', hY'⟩ := axisMap_le_319 (c := c) hp
    exact ⟨toNat_ofInt_of_le_319 hX hX', toNat_ofInt_of_le_319 hY hY', hX, hY,
      fun hr => axisMap_le_upright hr hp, fun hr => axisMap_le_quarter hr hp⟩

/-- Settles O29: each row of the table can be solved for the start point, and the rows of 0° and 180° are their own inverses. -/
theorem axisMapIsInjective : Obligations.AxisMapIsInjective := by
  intro c xs ys xs' ys' _ _ _ _ _ _ _ _
  refine ⟨fun heq => ?_, fun hr => ?_⟩
  · cases hr : c.rot <;>
      simp only [axisMap_r0, axisMap_r90, axisMap_r180, axisMap_r270, hr, Prod.mk.injEq] at heq <;> omega
  · rcases hr with hr | hr
    · simp only [axisMap_r0 hr]
    · simp only [axisMap_r180 hr, Int.sub_sub_self]

/-- Settles O30: the closed form of the three register writes. -/
theorem setAddrWinWritesCountersAndPrime : Obligations.SetAddrWinWritesCountersAndPrime := by
  intro xs ys xe ye s hready hpanel
  rw [exec_setAddrWin xs ys xe ye hready hpanel, sendWindow_eq_afterReg]
  rfl

/-- Settles O31: the state answered holds `F_COORD`, and a fault admits no step. -/
theorem setAddrWinOutsidePanelFaults : Obligations.SetAddrWinOutsidePanelFaults := by
  intro xs ys xe ye s hready hoff
  have hexec := exec_setAddrWin_off_panel xe ye hready hoff
  refine ⟨hexec, fun t ht => ?_⟩
  obtain rfl := Host.Outcome.next.inj (hexec.symm.trans ht)
  exact step_ne_next_of_raised rfl

/-- Settles O32: the words and the DC writes of the three register writes, of which the prime comes last. -/
theorem setAddrWinShowsFiveWords : Obligations.SetAddrWinShowsFiveWords := by
  intro xs ys xe ye s hready hpanel hcache hwhole hexact
  refine ⟨_, exec_setAddrWin xs ys xe ye hready hpanel, ?_⟩
  rw [State.setStatus_cfg, State.setStatus_trace, State.setStatus_dc, sendWindow_cfg,
    words_sendWindow _ _ ⟨hcache, hexact, fun _ => hwhole⟩, dcWrites_sendWindow]
  exact ⟨rfl, rfl, sendWindow_dc _ _ s⟩

end

section
/-! A list of register writes, and INIT_DISPLAY as one (43_init_sequencer.md R131, R132): the configuration is kept, and the words
of the trace are those of the writes, in order. -/

namespace Sys2Proof.Machine

open Sys2Proof.Safety

variable {s : State}

/-- Register writes in order. -/
def sendRegs (rs : List (Byte × Option Word)) (s : State) : State := rs.foldl (fun t r => regWrite r.1 r.2 t) s

theorem sendRegs_cons (r : Byte × Option Word) (rs : List (Byte × Option Word)) (s : State) :
    sendRegs (r :: rs) s = sendRegs rs (regWrite r.1 r.2 s) := rfl

theorem sendRegs_concat (rs : List (Byte × Option Word)) (r : Byte × Option Word) (s : State) :
    sendRegs (rs ++ [r]) s = regWrite r.1 r.2 (sendRegs rs s) := List.foldl_append

theorem sendRegs_busReach (rs : List (Byte × Option Word)) (s : State) : BusReach s (sendRegs rs s) := by
  induction rs generalizing s with
  | nil => exact .refl
  | cons r rs ih => exact busReach_trans (regWrite_busReach r.1 r.2 s) (ih _)

@[simp] theorem sendRegs_cfg (rs : List (Byte × Option Word)) (s : State) : (sendRegs rs s).cfg = s.cfg :=
  (busReach_onlyBus (sendRegs_busReach rs s)).cfg

@[simp] theorem sendRegs_phase (rs : List (Byte × Option Word)) (s : State) : (sendRegs rs s).phase = s.phase :=
  (busReach_onlyBus (sendRegs_busReach rs s)).phase

/-- Each write adds its own words (40_register_protocol.md R90). -/
theorem words_sendRegs (rs : List (Byte × Option Word)) (h : SendsExactly s) :
    words s.cfg.transport (sendRegs rs s).trace =
      words s.cfg.transport s.trace ++ (rs.flatMap (regWords s.cfg)).map exactWord := by
  induction rs generalizing s with
  | nil => exact (List.append_nil _).symm
  | cons r rs ih =>
    have hrest := ih (busReach_sendsExactly (regWrite_busReach r.1 r.2 s) h)
    rw [regWrite_cfg, words_regWrite r.1 r.2 h] at hrest
    rw [sendRegs_cons, hrest, List.flatMap_cons, List.map_append, List.append_assoc]

/-! ### The entries of `INIT_SEQ` -/

/-- The sequencer reads an entry as the register write it stands for (43_init_sequencer.md R131). -/
theorem initWrites_eq_map_entryWrite (c : Cfg) : initWrites c = c.initSeq.map (entryWrite c) := by
  refine List.map_congr_left fun e _ => ?_
  cases e with
  | fixed a v => rfl
  | wave => cases h : c.rot <;> simp only [entryWrite, rotParam, waveOf, h]

/-- No entry changes the configuration that the later ones are read with. -/
theorem sendEntries_eq_sendRegs (es : List InitEntry) (s : State) :
    sendEntries es s = sendRegs (es.map (entryWrite s.cfg)) s := by
  induction es generalizing s with
  | nil => rfl
  | cons e es ih =>
    have hrest := ih (sendEntry e s)
    rwa [sendEntry, regWrite_cfg] at hrest

/-- In READY INIT_DISPLAY sends its register writes and ends with OK. -/
theorem exec_initDisplay (hr : s.phase = .ready) :
    exec .initDisplay s = .next ((sendRegs (initWrites s.cfg) s).setStatus .ok) := by
  change execInitDisplay s = _
  rw [execInitDisplay, whenReady_ready hr, sendEntries_eq_sendRegs, ← initWrites_eq_map_entryWrite]
  rfl

/-- An accepted sequence ends with the prime (43_init_sequencer.md R130, check W2). -/
theorem initWrites_of_accepted {c : Cfg} (h : cfgRefused c = false) :
    ∃ rs, initWrites c = rs ++ [(c.regRam, none)] := by
  have hok : initSeqOk c = true := by
    by_contra hbad
    simp [cfgRefused, refusalReasons, hbad] at h
  have hlast : c.initSeq.getLast? = some (.fixed c.regRam none) := by
    simp only [initSeqOk, Bool.and_eq_true, beq_iff_eq] at hok
    obtain ⟨⟨-, hprime⟩, -⟩ := hok
    exact hprime
  refine List.getLast?_eq_some_iff.1 ?_
  rw [initWrites_eq_map_entryWrite, List.getLast?_map, hlast]
  rfl

/-- A differential register write without a value leaves the address word in the cache (41_bus_writer.md R101). -/
theorem regWrite_none_prev (a : Byte) (h : UsesCache s.cfg) :
    (regWrite a none s).prev = a.setWidth 16 ∧ (regWrite a none s).prevValid = true := by
  have haddr : regWrite a none s = busWord (a.setWidth 16) (pinWrite .dc s.cfg.dcCmd s) := rfl
  rw [haddr, busWord_of_usesCache _ (pinWrite .dc s.cfg.dcCmd s) h]
  exact ⟨rfl, rfl⟩

/-- INIT_DISPLAY adds the words of its register writes, and the command can be run again. -/
theorem initDisplay_sends {t : State} (hr : s.phase = .ready) (h : SendsExactly s) (ht : exec .initDisplay s = .next t) :
    t.cfg = s.cfg ∧ t.phase = .ready ∧ SendsExactly t ∧
      words s.cfg.transport t.trace =
        words s.cfg.transport s.trace ++ ((initWrites s.cfg).flatMap (regWords s.cfg)).map exactWord := by
  rw [exec_initDisplay hr] at ht
  obtain rfl := Host.Outcome.next.inj ht
  obtain ⟨hcache, hexact, hwhole⟩ := busReach_sendsExactly (sendRegs_busReach (initWrites s.cfg) s) h
  exact ⟨sendRegs_cfg _ s, (sendRegs_phase _ s).trans hr, ⟨hcache, hexact, hwhole⟩, words_sendRegs _ h⟩

end Sys2Proof.Machine
end

section
/-! What the observer makes of a list of register writes (20_memory.md R65): the last address is the index, and every register
ends at a value of its own or as it was. -/

namespace Sys2Proof.Machine

open Sys2Proof.Safety

variable {c : Cfg}

/-- What a register write does to the register map: nothing without a value, and none of RAM, whose values are pixels. -/
def putReg (c : Cfg) (m : List (Nat × Word)) (r : Byte × Option Word) : List (Nat × Word) :=
  match r.2 with
  | none => m
  | some v => if r.1 = c.regRam then m else regSet r.1.toNat v m

theorem observe_regWords (o : Observation) (r : Byte × Option Word) :
    ((regWords c r).foldl (observeWord c) o).idx = some r.1 ∧
      ((regWords c r).foldl (observeWord c) o).regs = putReg c o.regs r := by
  obtain ⟨a, v⟩ := r
  cases v with
  | none => rw [observe_select]; exact ⟨rfl, rfl⟩
  | some v =>
    by_cases ha : a = c.regRam
    · have hdata : (regWords c (a, some v)).foldl (observeWord c) o =
          observeWord c ((regWords c (a, none)).foldl (observeWord c) o) (dcData c, v) := rfl
      rw [hdata, observe_select, observeWord_ram v (congrArg some ha)]
      exact ⟨rfl, (if_pos ha).symm⟩
    · rw [observe_regWrite v ha]
      exact ⟨rfl, (if_neg ha).symm⟩

theorem observe_sendRegs (rs : List (Byte × Option Word)) (o : Observation) :
    ((rs.flatMap (regWords c)).foldl (observeWord c) o).idx = (rs.getLast?.map (·.1)).or o.idx ∧
      ((rs.flatMap (regWords c)).foldl (observeWord c) o).regs = rs.foldl (putReg c) o.regs := by
  induction rs generalizing o with
  | nil => exact ⟨rfl, rfl⟩
  | cons r rs ih =>
    obtain ⟨hidx, hregs⟩ := observe_regWords (c := c) o r
    rw [List.flatMap_cons, List.foldl_append, List.foldl_cons, ← hregs, List.getLast?_cons]
    refine ⟨(ih _).1.trans ?_, (ih _).2⟩
    rw [hidx]
    cases rs.getLast? <;> rfl

/-! ### Absolute writes (43_init_sequencer.md R134) -/

theorem regGet_putReg (m : List (Nat × Word)) (r : Byte × Option Word) (b : Nat) :
    regGet (putReg c m r) b = if r.1 ≠ c.regRam ∧ b = r.1.toNat then r.2.or (regGet m b) else regGet m b := by
  obtain ⟨a, v⟩ := r
  cases v with
  | none => exact (ite_self _).symm
  | some v => by_cases ha : a = c.regRam <;> simp [putReg, ha, regGet_regSet]

/-- Every write is absolute: a list of them gives a register one value whatever it held, or leaves it. -/
theorem putRegs_absolute (rs : List (Byte × Option Word)) (b : Nat) :
    (∃ v, ∀ m, regGet (rs.foldl (putReg c) m) b = some v) ∨
      ∀ m, regGet (rs.foldl (putReg c) m) b = regGet m b := by
  induction rs with
  | nil => exact .inr fun _ => rfl
  | cons r rs ih =>
    simp only [List.foldl_cons]
    rcases ih with ⟨v, hset⟩ | hkeep
    · exact .inl ⟨v, fun m => hset _⟩
    · simp only [hkeep, regGet_putReg]
      split
      · cases r.2 with
        | none => exact .inr fun _ => rfl
        | some v => exact .inl ⟨v, fun _ => rfl⟩
      · exact .inr fun _ => rfl

theorem putReg_wf {m : List (Nat × Word)} (r : Byte × Option Word) (h : regMapWf m = true) :
    regMapWf (putReg c m r) = true := by
  unfold putReg
  split
  · exact h
  · split
    · exact h
    · exact regSet_wf _ _ h

theorem putRegs_wf {m : List (Nat × Word)} (rs : List (Byte × Option Word)) (h : regMapWf m = true) :
    regMapWf (rs.foldl (putReg c) m) = true := by
  induction rs generalizing m with
  | nil => exact h
  | cons r rs ih => exact ih (putReg_wf r h)

/-- The same writes once more leave every register where they left it. -/
theorem putRegs_twice {m : List (Nat × Word)} (rs : List (Byte × Option Word)) (h : regMapWf m = true) :
    rs.foldl (putReg c) (rs.foldl (putReg c) m) = rs.foldl (putReg c) m := by
  refine regMap_ext (putRegs_wf rs (putRegs_wf rs h)) (putRegs_wf rs h) fun b => ?_
  rcases putRegs_absolute (c := c) rs b with ⟨v, hset⟩ | hkeep
  · rw [hset, hset]
  · rw [hkeep]

theorem observes_regs_wf {tr : List Event} {o : Observation} (h : Observes c tr o) : regMapWf o.regs = true := by
  obtain ⟨ws, -, rfl⟩ := h
  exact observeWords_wf c ws

/-- The same register writes once more leave the index and the registers of an observation of canonical form. -/
theorem observe_sendRegs_twice {o₀ o : Observation} (rs : List (Byte × Option Word)) (h : regMapWf o₀.regs = true)
    (ho : o = (rs.flatMap (regWords c)).foldl (observeWord c) o₀) :
    ((rs.flatMap (regWords c)).foldl (observeWord c) o).idx = o.idx ∧
      ((rs.flatMap (regWords c)).foldl (observeWord c) o).regs = o.regs := by
  obtain ⟨hidx, hregs⟩ := observe_sendRegs (c := c) rs o₀
  obtain ⟨hidx', hregs'⟩ := observe_sendRegs (c := c) rs o
  rw [← ho] at hidx hregs
  rw [hidx', hregs', hidx, hregs, putRegs_twice rs h]
  refine ⟨?_, rfl⟩
  cases rs.getLast? <;> rfl

end Sys2Proof.Machine
end

section

open Sys2Proof Sys2Proof.Machine Sys2Proof.Safety

/-- Settles O34: the entries are register writes, each with its closed form. -/
theorem initDisplaySendsEveryEntry : Obligations.InitDisplaySendsEveryEntry := by
  intro s hready
  rw [exec_initDisplay hready, sendRegs]
  simp only [regWrite_eq_afterReg]
  rfl

/-- Settles O35: an accepted sequence ends with the prime, and what it leaves is what the last register write leaves. -/
theorem initDisplayLeavesRamSelected : Obligations.InitDisplayLeavesRamSelected := by
  intro s hready hattach haccepted
  obtain ⟨rs, hrs⟩ := initWrites_of_accepted (hattach.1.symm.trans haccepted)
  have hexec := exec_initDisplay hready
  rw [hrs, sendRegs_concat] at hexec
  refine ⟨_, hexec, rfl, ?_, fun hcache => ?_, fun hcache hwhole hexact => ?_⟩
  · rw [State.setStatus_dc, regWrite_none_dc, sendRegs_cfg]
  · exact regWrite_none_prev s.cfg.regRam ((sendRegs_cfg rs s).symm ▸ hcache)
  · have hsends := busReach_sendsExactly (sendRegs_busReach rs s) ⟨hcache, hexact, fun _ => hwhole⟩
    have hwords := words_regWrite s.cfg.regRam none hsends
    rw [sendRegs_cfg] at hwords
    rw [State.setStatus_cfg, State.setStatus_trace, regWrite_cfg, sendRegs_cfg]
    refine ⟨by rw [hwords]; exact List.getLast?_concat, fun o ho => ?_⟩
    obtain ⟨o, -, rfl⟩ := (observes_append hwords _).1 ho
    rw [observe_select]

/-- Settles O36: what the second run makes of an observation of the first, the first has already made. -/
theorem initDisplayRerunKeepsRegisters : Obligations.InitDisplayRerunKeepsRegisters := by
  intro s t u hready hcache hwhole hexact hst htu idx regs
  obtain ⟨htcfg, htready, htsends, htwords⟩ := initDisplay_sends hready ⟨hcache, hexact, fun _ => hwhole⟩ hst
  obtain ⟨hucfg, -, -, huwords⟩ := initDisplay_sends htready htsends htu
  rw [htcfg] at hucfg huwords
  rw [hucfg, htcfg]
  have hsecond := observes_append huwords
  have hkeeps {o : Observation} (ho : Observes s.cfg t.trace o) :
      (((initWrites s.cfg).flatMap (regWords s.cfg)).foldl (observeWord s.cfg) o).idx = o.idx ∧
        (((initWrites s.cfg).flatMap (regWords s.cfg)).foldl (observeWord s.cfg) o).regs = o.regs := by
    obtain ⟨o₀, ho₀, hrun⟩ := (observes_append htwords o).1 ho
    exact observe_sendRegs_twice _ (observes_regs_wf ho₀) hrun
  constructor
  · rintro ⟨o', ho', rfl, rfl⟩
    obtain ⟨o, ho, rfl⟩ := (hsecond o').1 ho'
    exact ⟨o, ho, (hkeeps ho).1.symm, (hkeeps ho).2.symm⟩
  · rintro ⟨o, ho, rfl, rfl⟩
    exact ⟨_, (hsecond _).2 ⟨o, ho, rfl⟩, hkeeps ho⟩

end

section
/-! A step outside READY (44_config_validator.md R142): the Bus Link, the cache and the trace stay as they were, and READY is never
left once reached. -/

namespace Sys2Proof.Machine

open Sys2Proof.Safety

variable {s t : State}

/-- Outside READY a step writes only STATUS, PHASE, FAULTS and the stream. -/
theorem step_eq_of_not_ready (h : step s = .next t) (hp : s.phase ≠ .ready) :
    t = { s with status := t.status, phase := t.phase, faults := t.faults, stream := t.stream } := by
  obtain ⟨-, bs, u, -, hu, ht⟩ := step_busReach h
  obtain rfl : u = s.setStream bs := hu.resolve_right hp
  rw [ht]
  rfl

/-- PHASE moves from NEW alone, so READY stays (10_state.md R33). -/
theorem step_ready (h : step s = .next t) (hp : s.phase = .ready) : t.phase = .ready := by
  by_contra hne
  obtain ⟨hnew, -⟩ := stepMovesPhaseOnlyByValidation s t h (fun heq => hne (heq.trans hp))
  rw [hp] at hnew
  cases hnew

/-- A step that ends outside READY began outside it, so the silence it found is still there (R142). -/
theorem step_silentUntilReady (h : step s = .next t) (hs : SilentUntilReady s) : SilentUntilReady t := by
  intro hp
  have hsp : s.phase ≠ .ready := fun hr => hp (step_ready h hr)
  obtain ⟨htrace, hpins, hprev, hvalid⟩ := hs hsp
  rw [step_eq_of_not_ready h hsp]
  refine ⟨htrace, fun p => ?_, hprev, hvalid⟩
  rw [← hpins p]
  cases p <;> rfl

end Sys2Proof.Machine
end

section
/-! The validator and VERIFY_GPIOS (44_config_validator.md R140, R141): the required roles as bits of PINS, and what the command
answers in each phase. -/

namespace Sys2Proof.Machine

/-! ### The required pins (R140) -/

theorem all_db_assigned_iff (pins : BitVec 19) :
    (allLines.map PinRole.db).all (pinAssigned pins) = true ↔ ∀ n < 16, pins.getLsbD n = true := by
  simp [allLines, pinAssigned, pinIndex, Fin.forall_iff]

theorem all_low_db_assigned_iff (pins : BitVec 19) :
    ((allLines.filter (·.val < 8)).map PinRole.db).all (pinAssigned pins) = true ↔ ∀ n < 8, pins.getLsbD n = true := by
  simp only [List.all_map, List.all_filter, List.all_eq_true, allLines, List.mem_finRange, pinAssigned, pinIndex,
    Function.comp_apply, Fin.forall_iff]
  constructor
  · intro h n hn
    simpa [hn] using h n (by omega) trivial
  · intro h n _ _
    by_cases hn : n < 8 <;> simp [hn, h]

/-- The validator passes exactly when every role the transport and the bus width need is assigned. -/
theorem validate_iff (c : Cfg) (pins : BitVec 19) :
    validate c pins = true ↔ pins.getLsbD 17 = true ∧
      (c.transport = .gpio → pins.getLsbD 16 = true ∧
        (c.latched = true → pins.getLsbD 18 = true ∧ ∀ n < 8, pins.getLsbD n = true) ∧
        (c.latched = false → ∀ n < 16, pins.getLsbD n = true)) := by
  have hdc : pinAssigned pins .dc = pins.getLsbD 17 := rfl
  have hwr : pinAssigned pins .wr = pins.getLsbD 16 := rfl
  have hlatch : pinAssigned pins .latch = pins.getLsbD 18 := rfl
  unfold validate requiredPins
  cases ht : c.transport with
  | byte => simp [hdc]
  | gpio =>
    cases hl : c.latched with
    | true => simp [hdc, hwr, hlatch, ← all_low_db_assigned_iff]
    | false => simp [hdc, hwr, ← all_db_assigned_iff]

/-! ### The command in each phase (R141) -/

section phases

variable {s t : State}

theorem exec_verifyGpios_aborted (hp : s.phase = .aborted) :
    exec .verifyGpios s = .next { s with status := .aborted } := by
  change execVerifyGpios s = _
  simp only [execVerifyGpios, hp, endWith_eq]

theorem exec_verifyGpios_new_passed (hp : s.phase = .new) (hv : validate s.cfg s.pins = true) :
    exec .verifyGpios s = .next { s with phase := .ready, status := .ok } := by
  change execVerifyGpios s = _
  simp only [execVerifyGpios, hp, hv, if_true, endWith_eq]
  rfl

theorem exec_verifyGpios_new_failed (hp : s.phase = .new) (hv : validate s.cfg s.pins = false) :
    exec .verifyGpios s = .next { s with phase := .aborted, status := .configError } := by
  change execVerifyGpios s = _
  simp only [execVerifyGpios, hp, hv, endWith_eq]
  rfl

theorem exec_verifyGpios_ready (hp : s.phase = .ready) : exec .verifyGpios s = .next { s with status := .ok } := by
  change execVerifyGpios s = _
  simp only [execVerifyGpios, hp, endWith_eq]

/-- VERIFY_GPIOS writes only PHASE and STATUS. -/
theorem exec_verifyGpios_frame (h : exec .verifyGpios s = .next t) :
    t = { s with phase := t.phase, status := t.status } := by
  cases hp : s.phase with
  | aborted => rw [exec_verifyGpios_aborted hp] at h; cases h; rfl
  | ready => rw [exec_verifyGpios_ready hp] at h; cases h; rfl
  | new =>
    cases hv : validate s.cfg s.pins with
    | true => rw [exec_verifyGpios_new_passed hp hv] at h; cases h; rfl
    | false => rw [exec_verifyGpios_new_failed hp hv] at h; cases h; rfl

end phases

end Sys2Proof.Machine
end

section
/-! What the host pin actions and WRITE leave alone (45_host_actions.md R150, 41_bus_writer.md R110): a DC write adds only itself to
the trace, and bus words neither DC writes nor, on a GPIO transport, bytes. -/

namespace Sys2Proof.Machine

open Sys2Proof.Safety

variable {s t : State}

/-- STATUS lies outside the frame of the bus. -/
theorem onlyBusChanged_setStatus {st : Status} (h : OnlyBusChanged s t) : OnlyBusChanged s (t.setStatus st) :=
  ⟨h.cfg, h.pins, h.refused, h.phase, h.faults, h.stream, h.trace⟩

/-! ### The host pin actions -/

theorem lineEvents_pinWrite_dc (b : Bool) : lineEvents (pinWrite .dc b s).trace = lineEvents s.trace := by
  simp [lineEvents]

/-- A host pin action writes STATUS, in READY after a DC write. -/
theorem exec_hostDc_cases (h : exec .hostDcCmd s = .next t ∨ exec .hostDcData s = .next t) :
    (∃ st, t = s.setStatus st) ∨ ∃ b, t = (pinWrite .dc b s).setStatus .ok := by
  have key {level : State → Bool}
      (h : whenReady (fun s => endWith .ok (pinWrite .dc (level s) s)) s = .next t) :
      (∃ st, t = s.setStatus st) ∨ ∃ b, t = (pinWrite .dc b s).setStatus .ok := by
    rcases whenReady_cases h with ⟨-, ht⟩ | ⟨-, ht⟩ | ⟨-, ht⟩ <;> cases ht
    · exact .inl ⟨.aborted, rfl⟩
    · exact .inl ⟨.notReady, rfl⟩
    · exact .inr ⟨level s, rfl⟩
  exact h.elim (key (level := fun s => s.cfg.dcCmd)) (key (level := fun s => dcData s.cfg))

/-! ### WRITE -/

@[simp] theorem busWords_dc (ws : List Word) (s : State) : (busWords ws s).dc = s.dc := by
  induction ws generalizing s with
  | nil => rfl
  | cons w ws ih => exact (ih (busWord w s)).trans (busWord_dc w s)

theorem dcWrites_busWords (ws : List Word) (s : State) : dcWrites (busWords ws s).trace = dcWrites s.trace := by
  induction ws generalizing s with
  | nil => rfl
  | cons w ws ih => exact (ih (busWord w s)).trans (dcWrites_busWord w s)

theorem outBytes_busWords_gpio (ws : List Word) (h : s.cfg.transport = .gpio) :
    outBytes (busWords ws s).trace = outBytes s.trace := by
  induction ws generalizing s with
  | nil => rfl
  | cons w ws ih => exact (ih (by rw [busWord_cfg, h])).trans (outBytes_busWord_gpio w h)

/-- WRITE writes STATUS, in READY on a GPIO transport after bus words. -/
theorem exec_write_cases {payload : List Byte} (h : exec (.write payload) s = .next t) :
    (∃ st, t = s.setStatus st) ∨ s.cfg.transport = .gpio ∧ ∃ ws, t = (busWords ws s).setStatus .ok := by
  rcases whenReady_cases (body := writeBody payload) h with ⟨-, ht⟩ | ⟨-, ht⟩ | ⟨-, ht⟩
  · cases ht
    exact .inl ⟨.aborted, rfl⟩
  · cases ht
    exact .inl ⟨.notReady, rfl⟩
  · cases htr : s.cfg.transport with
    | byte =>
      rw [writeBody, if_pos htr] at ht
      cases ht
      exact .inl ⟨.notAvailable, rfl⟩
    | gpio =>
      rw [writeBody, if_neg (by simp [htr])] at ht
      split at ht <;> cases ht
      · exact .inl ⟨.oddLength, rfl⟩
      · exact .inr ⟨rfl, _, rfl⟩

end Sys2Proof.Machine
end

section

open Sys2Proof Sys2Proof.Machine Sys2Proof.Safety

/-- Settles O44: a step goes over the bus in READY only, and no step leaves READY. -/
theorem stepKeepsSilenceUntilReady : Obligations.StepKeepsSilenceUntilReady := by
  intro s t h
  refine ⟨fun hp => ?_, step_silentUntilReady h⟩
  rw [step_eq_of_not_ready h hp]

/-- Settles O16: the validator passes exactly on the required pins, and NEW is the one phase that asks it. -/
theorem verifyGpiosValidatesRequiredPins : Obligations.VerifyGpiosValidatesRequiredPins := by
  refine ⟨by decide, fun s => ?_⟩
  intro good
  have hgood : validate s.cfg s.pins = true ↔ good := validate_iff s.cfg s.pins
  exact ⟨exec_verifyGpios_aborted,
    fun hp hg => exec_verifyGpios_new_passed hp (hgood.2 hg),
    fun hp hg => exec_verifyGpios_new_failed hp (Bool.eq_false_iff.2 fun hv => hg (hgood.1 hv)),
    exec_verifyGpios_ready⟩

/-- Settles O40: VERIFY_GPIOS sends nothing, a host pin action at most one DC write, and WRITE at most bus words on a GPIO
transport. -/
theorem quietCommandFrames : Obligations.QuietCommandFrames := by
  intro s t
  refine ⟨fun h => ?_, fun h => ?_, fun payload h => ?_⟩
  · rw [exec_verifyGpios_frame h]
    exact ⟨⟨rfl, rfl, rfl, rfl, rfl⟩, rfl, rfl, rfl⟩
  · rcases exec_hostDc_cases h with ⟨st, rfl⟩ | ⟨b, rfl⟩
    · exact ⟨⟨rfl, rfl, rfl, rfl, rfl⟩, onlyBusChanged_setStatus (onlyBusChanged_refl s), rfl, rfl, rfl, rfl⟩
    · exact ⟨⟨rfl, rfl, rfl, rfl, rfl⟩, onlyBusChanged_setStatus (pinWrite_onlyBus .dc b s), captureWords_pinWrite_dc b,
        outBytes_pinWrite_dc b, lineEvents_pinWrite_dc b, wrWrites_pinWrite_dc b⟩
  · rcases exec_write_cases h with ⟨st, rfl⟩ | ⟨htr, ws, rfl⟩
    · exact ⟨onlyBusChanged_setStatus (onlyBusChanged_refl s), rfl, rfl, rfl⟩
    · exact ⟨onlyBusChanged_setStatus (busReach_onlyBus (busWords_busReach ws s)), busWords_dc ws s, dcWrites_busWords ws s,
        outBytes_busWords_gpio ws htr⟩

end

section
/-! Runs over whole descriptors (45_host_actions.md R151, R153): a step takes one descriptor off the stream, and a block that may
step still may after it unless a window starts off the panel. -/

namespace Sys2Proof.Machine

open Sys2Proof.Safety

variable {i : Instr} {s t : State}

/-! ### One descriptor -/

theorem step_instr (hc : CanStep s) {rest : List Byte} (hd : decode s.stream = .instr i rest) :
    step s = exec i (s.setStream rest) := by
  rw [step, if_neg (by simp [hc.1]), if_neg (by simp [canStep_raised hc]), hd]

/-- A SET_ADDR_WIN starts on the panel; of another command nothing is asked (42_address_window.md R124). -/
def StartsOnPanel (i : Instr) : Prop := ∀ xs ys xe ye, i = .setAddrWin xs ys xe ye → InPanel xs ys

/-- `F_COORD` is the one fault of a command, so a command that starts on the panel leaves the block able to step. -/
theorem exec_canStep (hp : StartsOnPanel i) (hc : CanStep s) (h : exec i s = .next t) : CanStep t := by
  rcases exec_cases i s with ⟨_, _, _, k⟩ | ⟨_, _, k, _⟩ | ⟨_, _, _, k⟩ | ⟨_, _, _, k⟩ |
    ⟨xs, ys, xe, ye, hi, _, hoff, k⟩ | ⟨u, _, hu, k⟩ <;> rw [k] at h <;> cases h
  case inr.inr.inr.inr.inl =>
    rw [(coordsOk_iff xs ys).2 (hp xs ys xe ye hi)] at hoff
    cases hoff
  case inr.inr.inr.inr.inr =>
    exact ⟨(busReach_onlyBus hu).refused.trans hc.1, (busReach_onlyBus hu).faults.trans hc.2⟩
  all_goals exact hc

theorem step_encode (hwf : i.wf = true) (hp : StartsOnPanel i) (hc : CanStep s) {rest : List Byte}
    (hs : s.stream = encode i ++ rest) : ∃ t, step s = .next t ∧ CanStep t ∧ t.stream = rest := by
  have hd : decode s.stream = .instr i rest := hs ▸ decode_encode hwf rest
  obtain ⟨t, ht⟩ := exec_next i (s.setStream rest)
  exact ⟨t, (step_instr hc hd).trans ht, exec_canStep (s := s.setStream rest) hp hc ht, exec_stream ht⟩

/-! ### A whole stream -/

theorem run_encodings {is : List Instr} (hwf : ∀ i ∈ is, i.wf = true) (hp : ∀ i ∈ is, StartsOnPanel i) (hc : CanStep s)
    (hs : s.stream = is.flatMap encode) :
    ∃ t, Host.Core.run core is.length s = .next t ∧ CanStep t ∧ t.stream = [] := by
  induction is generalizing s with
  | nil => exact ⟨s, rfl, hc, hs⟩
  | cons i is ih =>
    obtain ⟨hwfi, hwfs⟩ := List.forall_mem_cons.1 hwf
    obtain ⟨hpi, hps⟩ := List.forall_mem_cons.1 hp
    obtain ⟨u, hu, hcu, hsu⟩ := step_encode hwfi hpi hc hs
    obtain ⟨t, ht, hend⟩ := ih hwfs hps hcu hsu
    exact ⟨t, (run_next (M := core) hu is.length).trans ht, hend⟩

theorem runEnd_of_empty (hc : CanStep s) (hs : s.stream = []) : runEnd s = .done (s.phase == .aborted) := by
  simp [runEnd, hc.1, canStep_raised hc, hs]

/-! ### The host pin actions (R150) -/

theorem exec_hostDcCmd_ready (hr : s.phase = .ready) :
    exec .hostDcCmd s = .next ((afterDc s.cfg.dcCmd s).setStatus .ok) := by
  change execHostDcCmd s = _
  rw [execHostDcCmd, whenReady_ready hr, pinWrite_dc_eq]
  rfl

theorem exec_hostDcData_ready (hr : s.phase = .ready) :
    exec .hostDcData s = .next ((afterDc (dcData s.cfg) s).setStatus .ok) := by
  change execHostDcData s = _
  rw [execHostDcData, whenReady_ready hr, pinWrite_dc_eq]
  rfl

end Sys2Proof.Machine
end

section

open Sys2Proof Sys2Proof.Machine Sys2Proof.Safety

/-- Settles O48, by induction on the commands: each step runs one and leaves the block able to run the next. -/
theorem legalStreamRunsToDone : Obligations.LegalStreamRunsToDone := by
  intro is s hc hwf hp hs
  have hpanel : ∀ i ∈ is, StartsOnPanel i := fun _ hi xs ys xe ye he => hp xs ys xe ye (he ▸ hi)
  obtain ⟨t, hrun, hct, hend⟩ := run_encodings hwf hpanel hc hs
  exact ⟨t, hrun, runEnd_of_empty hct hend⟩

/-- Settles O6: neither check of R169 step 1 stops the block, and the stream holds the command. -/
theorem stepRunsDecodedCommand : Obligations.StepRunsDecodedCommand := fun _ _ _ hc hd => step_instr hc hd

/-- Settles O37: in READY a host pin action is one DC write. -/
theorem hostDcDrivesOnlyDc : Obligations.HostDcDrivesOnlyDc :=
  ⟨by decide, by decide, fun _ hr => ⟨exec_hostDcCmd_ready hr, exec_hostDcData_ready hr⟩⟩

end

section
/-! Exceptions: what the checks before a command answer (60_exceptions.md R168, R169 steps 1 and 4), and what a command that ends
with a status other than OK leaves (R164). -/

namespace Sys2Proof.Machine

open Sys2Proof.Safety

variable {i : Instr} {s t : State}

/-! ### The checks of R169 step 1, and the waiting step -/

theorem step_refused (hr : s.refused = true) : step s = .refused (.configRefused (refusalReasons s.cfg)) := by
  rw [step, if_pos hr]

theorem step_faulted (hr : s.refused = false) (hf : s.faults.raised = true) : step s = .fault (.stopped s.faults) := by
  rw [step, if_neg (by simp [hr]), if_pos hf]

theorem step_empty (hc : CanStep s) (hd : decode s.stream = .empty) : step s = .next s := by
  rw [step, if_neg (by simp [hc.1]), if_neg (by simp [canStep_raised hc]), hd]

/-- Past the checks of R169 step 1 there is a next state, whatever the stream holds. -/
theorem step_next (hc : CanStep s) : ∃ t, step s = .next t := by
  cases hd : decode s.stream with
  | empty => exact ⟨s, step_empty hc hd⟩
  | illegal h rest => exact ⟨_, step_illegal hc hd⟩
  | truncated => exact ⟨_, step_truncated hc hd⟩
  | instr i rest =>
    rw [step_instr hc hd]
    exact exec_next i _

/-! ### The phase checks -/

theorem whenReady_aborted (hp : s.phase = .aborted) (body : State → Host.Outcome State Fault Refusal) :
    whenReady body s = .next { s with status := .aborted } := by
  simp only [whenReady, hp, endWith_eq]

theorem whenReady_new (hp : s.phase = .new) (body : State → Host.Outcome State Fault Refusal) :
    whenReady body s = .next { s with status := .notReady } := by
  simp only [whenReady, hp, endWith_eq]

/-- Every command but VERIFY_GPIOS runs behind the same phase checks. -/
theorem exec_eq_whenReady (hi : i ≠ .verifyGpios) : ∃ body, exec i = whenReady body := by
  cases i with
  | verifyGpios => exact absurd rfl hi
  | _ => exact ⟨_, rfl⟩

theorem exec_aborted (i : Instr) (hp : s.phase = .aborted) : exec i s = .next { s with status := .aborted } := by
  by_cases hi : i = .verifyGpios
  · rw [hi, exec_verifyGpios_aborted hp]
  · obtain ⟨body, hbody⟩ := exec_eq_whenReady hi
    rw [hbody, whenReady_aborted hp]

theorem exec_new (hi : i ≠ .verifyGpios) (hp : s.phase = .new) : exec i s = .next { s with status := .notReady } := by
  obtain ⟨body, hbody⟩ := exec_eq_whenReady hi
  rw [hbody, whenReady_new hp]

/-! ### A command that fails (R164) -/

/-- Commands that went over the bus end OK, so one that ends otherwise, and raises no fault, wrote only STATUS and PHASE. -/
theorem exec_failed_frame (h : exec i s = .next t) (hok : t.status ≠ .ok) (hf : t.faults = s.faults) :
    t = { s with status := t.status, phase := t.phase } := by
  rcases exec_cases i s with ⟨_, _, _, k⟩ | ⟨_, _, k, _⟩ | ⟨_, _, _, k⟩ | ⟨_, _, _, k⟩ | ⟨_, _, _, _, _, _, _, k⟩ |
    ⟨u, _, _, k⟩ <;> rw [k] at h <;> cases h
  case inr.inr.inr.inr.inl => exact congrArg s.setFaults hf
  case inr.inr.inr.inr.inr => exact absurd rfl hok
  all_goals rfl

/-- A command that fails moves PHASE only when the validation fails (44_config_validator.md R141). -/
theorem exec_failed_phase (h : exec i s = .next t) (hok : t.status ≠ .ok) (hp : t.phase ≠ s.phase) :
    t.status = .configError ∧ t.phase = .aborted := by
  obtain ⟨-, -, ⟨-, hst⟩ | ⟨hph, hst⟩⟩ := (exec_phase h).resolve_left hp
  · exact absurd hst hok
  · exact ⟨hst, hph⟩

end Sys2Proof.Machine
end

section

open Sys2Proof Sys2Proof.Machine Sys2Proof.Safety

/-- Settles O7: the two checks of R169 step 1 are the only stops, and a command always answers a next state. -/
theorem stepStopsOnlyWhenRunIsOver : Obligations.StepStopsOnlyWhenRunIsOver := fun _ =>
  ⟨step_refused, fun hr hf => step_faulted hr ((raised_iff _).2 hf), step_next⟩

/-- Settles O9: the phase checks stand before every command's rule, and VERIFY_GPIOS makes the one of ABORTED itself. -/
theorem phaseTurnsCommandsAway : Obligations.PhaseTurnsCommandsAway := fun i _ =>
  ⟨exec_aborted i, fun hp hi => exec_new hi hp⟩

/-- Settles O10: an illegal header writes only STATUS, a truncation faults, and a failed command is as R164 says. -/
theorem failedCommandHasNoEffect : Obligations.FailedCommandHasNoEffect := by
  intro s t hc hne h hct hok
  cases hd : decode s.stream with
  | empty => exact absurd (eq_nil_of_decode_empty hd) hne
  | illegal hw rest =>
    rw [step_illegal hc hd] at h
    cases h
    exact ⟨rfl, fun hp => absurd rfl hp⟩
  | truncated =>
    rw [step_truncated hc hd] at h
    cases h
    cases hct.2
  | instr i rest =>
    rw [step_instr hc hd] at h
    have hfaults : t.faults = (s.setStream rest).faults := hct.2.trans hc.2.symm
    refine ⟨?_, exec_failed_phase (s := s.setStream rest) h hok⟩
    rw [exec_failed_frame h hok hfaults]
    rfl

end

section
/-! The waiting step (70_reset_and_hazards.md R181): a step that meets a byte takes one off the stream or raises a fault. -/

namespace Sys2Proof

/-- A command's descriptor has at least its header (30_encoding.md R80). -/
theorem encode_ne_nil (i : Instr) : encode i ≠ [] := by
  rw [encode_eq_header_operands]
  exact List.cons_ne_nil _ _

theorem decode_instr_rest_ne {bs rest : List Byte} {i : Instr} (h : decode bs = .instr i rest) : rest ≠ bs := by
  obtain ⟨-, hbs⟩ := eq_encode_of_decode h
  exact fun heq => encode_ne_nil i (List.self_eq_append_left.1 (heq.trans hbs))

theorem decode_illegal_rest_ne {bs rest : List Byte} {h : Word} (hd : decode bs = .illegal h rest) : rest ≠ bs := by
  match bs, hd with
  | hi :: lo :: tail, hd =>
    obtain ⟨-, -, rfl⟩ := (decode_illegal_iff hi lo tail h rest).1 hd
    exact fun heq => List.cons_ne_nil hi [lo] (List.self_eq_append_left.1 heq)

end Sys2Proof

namespace Sys2Proof.Machine

open Sys2Proof.Safety

variable {s : State}

theorem step_ne_self_of_stream_ne_nil (hc : CanStep s) (hne : s.stream ≠ []) : step s ≠ .next s := by
  intro h
  cases hd : decode s.stream with
  | empty => exact hne (eq_nil_of_decode_empty hd)
  | illegal hw rest =>
    rw [step_illegal hc hd] at h
    exact decode_illegal_rest_ne hd (congrArg State.stream (Host.Outcome.next.inj h))
  | truncated =>
    rw [step_truncated hc hd] at h
    exact hne (congrArg State.stream (Host.Outcome.next.inj h)).symm
  | instr i rest =>
    rw [step_instr hc hd] at h
    exact decode_instr_rest_ne hd (exec_stream h).symm

end Sys2Proof.Machine
end

section
/-! Attach (70_reset_and_hazards.md R180, R182): the reset values of the pins and of the phase, and the reasons for which a
configuration is refused (60_exceptions.md R167). -/

namespace Sys2Proof.Machine

open Sys2Proof.Safety

/-! ### Reset values -/

theorem attach_pin (c : Cfg) (pins : BitVec 19) (p : PinRole) : (State.attach c pins).pin p = .x := by
  cases p with
  | db i => exact Vector.getElem_replicate i.isLt
  | wr => rfl
  | dc => rfl
  | latch => rfl

theorem attach_phase_ne_ready (c : Cfg) (pins : BitVec 19) : (State.attach c pins).phase ≠ .ready := by
  cases h : c.allocOk <;> simp [State.attach, h]

/-! ### Refusal reasons -/

variable (c : Cfg)

theorem latchedSlow_mem_refusalReasons : .latchedSlow ∈ refusalReasons c ↔ c.latched = true ∧ c.slow = true := by
  simp [refusalReasons]

theorem naiveMix_mem_refusalReasons :
    .naiveMix ∈ refusalReasons c ↔ c.naive = true ∧ (c.latched = true ∨ c.slow = true) := by
  simp [refusalReasons]

theorem byteFlags_mem_refusalReasons :
    .byteFlags ∈ refusalReasons c ↔
      c.transport = .byte ∧ (c.latched = true ∨ c.slow = true ∨ c.naive = true) := by
  simp [refusalReasons, or_assoc]

theorem initSeq_mem_refusalReasons : .initSeq ∈ refusalReasons c ↔ ¬ initSeqOk c = true := by
  simp [refusalReasons]

/-- The check of W1 counts the `Wave` entries. -/
theorem countP_isWave (es : List InitEntry) : es.countP isWave = es.count .wave := by
  refine List.countP_congr fun e _ => ?_
  cases e <;> simp [isWave]

/-- W1, W2 and W3 of 43_init_sequencer.md R130. -/
theorem initSeqOk_iff : initSeqOk c = true ↔
    c.initSeq.count .wave = 1 ∧ (∃ es, c.initSeq = es ++ [.fixed c.regRam none]) ∧ c.initSeq ≠ [] := by
  simp only [initSeqOk, countP_isWave, Bool.and_eq_true, beq_iff_eq, List.getLast?_eq_some_iff, Bool.not_eq_true',
    List.isEmpty_eq_false_iff, and_assoc]

theorem cfgRefused_iff : cfgRefused c = true ↔ ∃ r, r ∈ refusalReasons c := by
  rw [cfgRefused, Bool.not_eq_true', List.isEmpty_eq_false_iff_exists_mem]

/-- A refused attach admits no step (60_exceptions.md R169 step 1). -/
theorem step_ne_next_of_refused {s : State} (h : s.refused = true) (t : State) : step s ≠ .next t := by
  rw [step_refused h]
  exact nofun

/-! ### The invariants at attach (10_state.md R20) -/

variable (pins : BitVec 19)

theorem attach_cacheMatchesLines : CacheMatchesLines (State.attach c pins) :=
  fun _ => ⟨nofun, fun _ => ⟨rfl, fun i => ⟨attach_pin c pins (.db i), fun _ => List.not_mem_nil⟩⟩⟩

theorem attach_pinsMatchTrace : PinsMatchTrace (State.attach c pins) := attach_pin c pins

theorem attach_silentUntilReady : SilentUntilReady (State.attach c pins) :=
  fun _ => ⟨rfl, attach_pin c pins, rfl, rfl⟩

theorem attach_attachDecided : AttachDecided (State.attach c pins) :=
  ⟨rfl, fun h => absurd h (attach_phase_ne_ready c pins)⟩

theorem attach_onlyAssignedPins : OnlyAssignedPins (State.attach c pins) := fun _ _ h => absurd h List.not_mem_nil

theorem attach_unusedStateUntouched : UnusedStateUntouched (State.attach c pins) :=
  ⟨fun _ => rfl, fun _ => ⟨rfl, fun i => attach_pin c pins (.db i)⟩, fun _ i _ => attach_pin c pins (.db i),
    fun _ => ⟨rfl, rfl⟩⟩

theorem attach_wordsAreWhole : WordsAreWhole (State.attach c pins) := by
  cases h : (State.attach c pins).cfg.transport with
  | gpio => exact (wordsAreWhole_gpio_iff h).2 rfl
  | byte => exact (wordsAreWhole_byte_iff h).2 ⟨⟨[], rfl⟩, rfl⟩

theorem attach_strobePerWord : StrobePerWord (State.attach c pins) := by
  unfold StrobePerWord
  cases (State.attach c pins).cfg.transport <;> rfl

end Sys2Proof.Machine
end

section
/-! The number of words a command sends (70_reset_and_hazards.md R194): a capture for each on a GPIO transport, two bytes for each
on the byte transport. -/

namespace Sys2Proof.Machine

open Sys2Proof.Safety

variable {s t u : State} {m n : Nat}

/-- From `s` to `t` the trace grows by `n` bus words, under the same configuration. -/
structure AddsWords (n : Nat) (s t : State) : Prop where
  cfg : t.cfg = s.cfg
  captures : s.cfg.transport = .gpio → (captureWords t.trace).length = (captureWords s.trace).length + n
  bytes : s.cfg.transport = .byte → (outBytes t.trace).length = (outBytes s.trace).length + 2 * n

theorem addsWords_refl (s : State) : AddsWords 0 s s := ⟨rfl, fun _ => rfl, fun _ => rfl⟩

theorem addsWords_trans (h : AddsWords m s t) (k : AddsWords n t u) : AddsWords (m + n) s u where
  cfg := k.cfg.trans h.cfg
  captures ht := by rw [k.captures (h.cfg ▸ ht), h.captures ht, Nat.add_assoc]
  bytes ht := by rw [k.bytes (h.cfg ▸ ht), h.bytes ht, Nat.mul_add, Nat.add_assoc]

theorem addsWords_setStatus {st : Status} (h : AddsWords n s t) : AddsWords n s (t.setStatus st) :=
  ⟨h.cfg, h.captures, h.bytes⟩

/-! ### DC writes and bus words -/

theorem pinWrite_dc_addsWords (b : Bool) (s : State) : AddsWords 0 s (pinWrite .dc b s) :=
  ⟨pinWrite_cfg .dc b s, fun _ => by rw [captureWords_pinWrite_dc, Nat.add_zero],
    fun _ => by rw [outBytes_pinWrite_dc, Nat.mul_zero, Nat.add_zero]⟩

theorem busWord_addsWords (w : Word) (s : State) : AddsWords 1 s (busWord w s) :=
  ⟨busWord_cfg w s, captureWords_busWord_gpio w, fun ht => by rw [outBytes_busWord_byte w ht, List.length_append]; rfl⟩

theorem busWords_addsWords (ws : List Word) (s : State) : AddsWords ws.length s (busWords ws s) := by
  induction ws generalizing s with
  | nil => exact addsWords_refl s
  | cons w ws ih =>
    rw [List.length_cons, Nat.add_comm]
    exact addsWords_trans (busWord_addsWords w s) (ih _)

/-! ### Register writes -/

/-- One phase of a register write is one word (40_register_protocol.md R90). -/
theorem phase_addsWords (b : Bool) (w : Word) (s : State) : AddsWords 1 s (busWord w (pinWrite .dc b s)) :=
  addsWords_trans (pinWrite_dc_addsWords b s) (busWord_addsWords w _)

theorem regWrite_addsWords (a : Byte) (v : Option Word) (s : State) :
    AddsWords (regWords s.cfg (a, v)).length s (regWrite a v s) := by
  have haddr : AddsWords 1 s (regWrite a none s) := phase_addsWords _ _ s
  cases v with
  | none => exact haddr
  | some v =>
    rw [regWrite_some]
    exact addsWords_trans haddr (phase_addsWords _ v _)

theorem sendRegs_addsWords (rs : List (Byte × Option Word)) (s : State) :
    AddsWords (rs.flatMap (regWords s.cfg)).length s (sendRegs rs s) := by
  induction rs generalizing s with
  | nil => exact addsWords_refl s
  | cons r rs ih =>
    have hrest := ih (regWrite r.1 r.2 s)
    rw [regWrite_cfg] at hrest
    rw [List.flatMap_cons, List.length_append]
    exact addsWords_trans (regWrite_addsWords r.1 r.2 s) hrest

/-- X and Y are two words each, the prime one. -/
theorem sendWindow_addsWords (x y : Word) (s : State) : AddsWords 5 s (sendWindow x y s) :=
  addsWords_trans (addsWords_trans (regWrite_addsWords _ (some x) s) (regWrite_addsWords _ (some y) _))
    (regWrite_addsWords _ none _)

/-- An entry of `INIT_SEQ` is a word for its address, and one more if it has a value (43_init_sequencer.md R131). -/
theorem length_flatMap_regWords (c : Cfg) (es : List InitEntry) :
    ((es.map (entryWrite c)).flatMap (regWords c)).length =
      es.length + es.countP fun e => (entryWrite c e).2.isSome := by
  induction es with
  | nil => rfl
  | cons e es ih =>
    rw [List.map_cons, List.flatMap_cons, List.length_append, ih, List.length_cons, List.countP_cons]
    cases h : (entryWrite c e).2 <;> simp [regWords, h] <;> omega

/-! ### Commands that end with OK -/

theorem exec_initDisplay_addsWords (hr : s.phase = .ready) (h : exec .initDisplay s = .next t) :
    AddsWords (s.cfg.initSeq.length + s.cfg.initSeq.countP fun e => (entryWrite s.cfg e).2.isSome) s t := by
  rw [exec_initDisplay hr] at h
  cases h
  rw [← length_flatMap_regWords, ← initWrites_eq_map_entryWrite]
  exact addsWords_setStatus (sendRegs_addsWords _ s)

/-- Off the panel the command ends in a fault, so a block that may still step has sent the window's words. -/
theorem exec_setAddrWin_addsWords {xs ys xe ye : Word} (hr : s.phase = .ready)
    (h : exec (.setAddrWin xs ys xe ye) s = .next t) (ht : CanStep t) : AddsWords 5 s t := by
  by_cases hp : InPanel xs ys
  · rw [exec_setAddrWin xs ys xe ye hr hp] at h
    cases h
    exact addsWords_setStatus (sendWindow_addsWords _ _ s)
  · rw [exec_setAddrWin_off_panel xe ye hr hp] at h
    cases h
    cases ht.2

/-- WRITE ends with OK only on a GPIO transport and with an even payload (41_bus_writer.md R111, R112). -/
theorem exec_write_addsWords {payload : List Byte} (hr : s.phase = .ready) (h : exec (.write payload) s = .next t)
    (hok : t.status = .ok) : AddsWords (payload.length / 2) s t := by
  change whenReady (writeBody payload) s = _ at h
  rw [whenReady_ready hr, writeBody] at h
  split at h
  · cases h
    cases hok
  · split at h <;> cases h
    · cases hok
    · have hlen : (bufWords s.cfg.bufOrder payload).length = payload.length / 2 := by simp [bufWords_eq, bufferWords]
      exact hlen ▸ addsWords_setStatus (busWords_addsWords _ s)

theorem exec_hostDc_addsWords (h : exec .hostDcCmd s = .next t ∨ exec .hostDcData s = .next t) : AddsWords 0 s t := by
  rcases exec_hostDc_cases h with ⟨st, rfl⟩ | ⟨b, rfl⟩
  · exact addsWords_setStatus (addsWords_refl s)
  · exact addsWords_setStatus (pinWrite_dc_addsWords b s)

end Sys2Proof.Machine
end

section

open Sys2Proof Sys2Proof.Machine Sys2Proof.Safety

/-- Settles O8: with a byte left the step takes it off the stream or raises a fault. -/
theorem stepWaitsForHost : Obligations.StepWaitsForHost := fun s hc =>
  ⟨fun h => by_contra fun hne => step_ne_self_of_stream_ne_nil hc hne h,
    fun hnil => step_empty hc (by rw [hnil]; rfl)⟩

/-- Settles O12: attach writes every field, STATUS and PHASE by ALLOC_OK. -/
theorem attachGivesResetValues : Obligations.AttachGivesResetValues := by
  intro c pins
  refine ⟨attach_pin c pins, rfl, rfl, rfl, rfl, rfl, rfl, rfl, fun h => ?_, fun h => ?_⟩ <;>
    simp [State.attach, h]

/-- Settles O13, reason by reason; REFUSED is that one of them applies, and it is the first check of a step. -/
theorem attachRefusesListedConfigurations : Obligations.AttachRefusesListedConfigurations := fun c pins =>
  ⟨latchedSlow_mem_refusalReasons c, naiveMix_mem_refusalReasons c, byteFlags_mem_refusalReasons c,
    (initSeq_mem_refusalReasons c).trans (not_congr (initSeqOk_iff c)), cfgRefused_iff c,
    fun h bs => step_ne_next_of_refused (s := { State.attach c pins with stream := bs }) h⟩

/-- Settles O14, invariant by invariant: nothing is driven, sent or cached yet, and PHASE is not READY. -/
theorem attachMeetsInvariants : Obligations.AttachMeetsInvariants := fun c pins =>
  ⟨attach_cacheMatchesLines c pins, attach_pinsMatchTrace c pins, attach_silentUntilReady c pins,
    attach_attachDecided c pins, attach_onlyAssignedPins c pins, attach_unusedStateUntouched c pins,
    attach_wordsAreWhole c pins, attach_strobePerWord c pins⟩

/-- Settles O41, command by command: each is DC writes, register writes or buffer words, which add their words to the trace. -/
theorem commandsSendTheirWordCount : Obligations.CommandsSendTheirWordCount := by
  intro i s t hr _ h ht hok
  suffices hn : AddsWords _ s t from ⟨hn.captures, hn.bytes⟩
  cases i with
  | verifyGpios =>
    rw [exec_verifyGpios_frame h]
    exact ⟨rfl, fun _ => rfl, fun _ => rfl⟩
  | initDisplay =>
    refine (List.countP_congr fun e _ => ?_) ▸ exec_initDisplay_addsWords hr h
    rcases e with ⟨a, _ | v⟩ | _ <;> rfl
  | setAddrWin xs ys xe ye => exact exec_setAddrWin_addsWords hr h ht
  | writeRegA a =>
    rw [exec_writeRegA a hr] at h
    cases h
    exact addsWords_setStatus (regWrite_addsWords a none s)
  | writeRegAV a v =>
    rw [exec_writeRegAV a v hr] at h
    cases h
    exact addsWords_setStatus (regWrite_addsWords a (some v) s)
  | write payload => exact exec_write_addsWords hr h hok
  | hostDcCmd => exact exec_hostDc_addsWords (.inl h)
  | hostDcData => exact exec_hostDc_addsWords (.inr h)

end
